-- ==== Sys2Proof/Word.lean ====
section
/-! DEFINITION. The two bit-vector types of the block: a byte of a byte memory (20_memory.md R40) and a
command word (30_encoding.md R60). Indices, counters and lengths are natural numbers (00_scope.md R8). -/

namespace Sys2Proof

/-- One byte: 8 bits (20_memory.md R40). -/
abbrev Byte := BitVec 8

/-- One command word: 32 bits, bit 31 the most significant (30_encoding.md R60). -/
abbrev Word := BitVec 32

end Sys2Proof
end

