-- ==== Sys2Proof/Config.lean ====
section
/-! DEFINITION. What is fixed for one realisation of the block: its build-time parameters (00_scope.md R6, R7)
and the set of supported pins (42_channel.md R127); and the free value the spec leaves open, the bytes of
`tx.blk` after a hardware reset (10_state.md R34). -/

namespace Sys2Proof

/-- The build-time parameters (00_scope.md R6: RC, NB, BS) and the parameter `PIN_SUPPORTED` of
42_channel.md R127, written as 16 answers: bit `p` of `pins` says whether pin `p` is supported. -/
structure Params where
  /-- `RC`, the byte slots of the RX ring. -/
  rc : Nat
  /-- `NB`, the block slots of the TX queue. -/
  nb : Nat
  /-- `BS`, the bytes of one TX block slot. -/
  bs : Nat
  /-- `PIN_SUPPORTED`, one bit per pin number 0 to 15. -/
  pins : BitVec 16
  deriving DecidableEq, Repr

/-- The constraints of 00_scope.md R7. -/
abbrev Params.wf (p : Params) : Prop :=
  1 ≤ p.rc ∧ 1 ≤ p.nb ∧ 1 ≤ p.bs ∧ p.rc ≤ 65535 ∧ p.nb * p.bs ≤ 65535

/-- The reference test configuration `T` of 00_scope.md R8. DESIGN CHOICE: it is the configuration of
`State.reset`, with pin 0 the one supported pin (assumptions 1 and 2); no statement rests on it. -/
def Params.reference : Params := { rc := 4, nb := 4, bs := 32, pins := 0x0001#16 }

/-- FREE VALUE (10_state.md R34, 93_implementation_defined.md U11): the byte at a TXMEM address that nothing
has written since the last `rst`, by the number of resets so far and the address. Nothing constrains it. -/
opaque Config.txResetByte : Nat → Nat → Byte

end Sys2Proof
end

