-- ==== Sys2Proof/Syntax.lean ====
section
/-! DEFINITION. The eight commands of the block (30_encoding.md R62), one constructor per row of the opcode
table. Lengths, the pin number and the baud rate are natural numbers (R64, R65); WellFormed.lean bounds them. -/

namespace Sys2Proof

/-- A command with its operands (00_scope.md R2, 30_encoding.md R62). -/
inductive Instr where
  /-- `RXRST` (40_rx_ring.md R81). -/
  | rxrst
  /-- `RXPUSH byte` (40_rx_ring.md R83). -/
  | rxpush (byte : Byte)
  /-- `RXPOP len` (40_rx_ring.md R86). -/
  | rxpop (len : Nat)
  /-- `TXRST` (41_tx_queue.md R96). -/
  | txrst
  /-- `TXENQ len` (41_tx_queue.md R101). -/
  | txenq (len : Nat)
  /-- `TXPUMP` (41_tx_queue.md R108). -/
  | txpump
  /-- `TXDONE` (41_tx_queue.md R115). -/
  | txdone
  /-- `OPEN pin, baud` (42_channel.md R126). -/
  | chOpen (pin baud : Nat)
  deriving DecidableEq, Repr

end Sys2Proof
end

