-- ==== Sys2Proof/WellFormed.lean ====
section
/-! DEFINITION. Which commands can be encoded: every operand inside the range of its field
(30_encoding.md R63 to R65). -/

namespace Sys2Proof

/-- `len` fits format L (30_encoding.md R64). -/
abbrev lenInRange (len : Nat) : Prop := len ≤ 65535

/-- `pin` fits format O (30_encoding.md R65). -/
abbrev pinInRange (pin : Nat) : Prop := pin ≤ 15

/-- `baud` fits format O (30_encoding.md R65). -/
abbrev baudInRange (baud : Nat) : Prop := baud ≤ 16777215

/-- Every operand of the command is in its field's range; a byte always is (30_encoding.md R63). -/
def Instr.wf : Instr → Bool
  | .rxrst => true
  | .rxpush _ => true
  | .rxpop len => decide (lenInRange len)
  | .txrst => true
  | .txenq len => decide (lenInRange len)
  | .txpump => true
  | .txdone => true
  | .chOpen pin baud => decide (pinInRange pin) && decide (baudInRange baud)

end Sys2Proof
end

