-- ==== Sys2Proof/Decode.lean ====
section
/-! DEFINITION. The three ports, the decoder (total: a command or the reason a word is invalid) and the encoder
(30_encoding.md R60 to R67), the opcode map's match and mask (R62), and the pseudo-commands (R71). -/

namespace Sys2Proof

/-- The block's command ports, one per agent (00_scope.md R9, 30_encoding.md R66). -/
inductive Port where
  /-- The application task context. -/
  | app
  /-- The receive-data-ready interrupt context. -/
  | rxirq
  /-- The DMA-transfer-complete interrupt context. -/
  | dmairq
  deriving DecidableEq, Repr

/-- Why a word is invalid, the three cases of 30_encoding.md R67. -/
inductive Invalid where
  /-- Case (a): the opcode is 0x0 or one of 0x9 to 0xF. -/
  | unassignedOpcode
  /-- Case (b): a must-be-zero bit of the format is 1. -/
  | mustBeZero
  /-- Case (c): the port does not accept the opcode (R66). -/
  | wrongPort
  deriving DecidableEq, Repr

/-- The decoder's answer: "either one command with its operands or `invalid`" (30_encoding.md R67). -/
inductive Decoded where
  | command (i : Instr)
  | invalid (why : Invalid)
  deriving DecidableEq, Repr

/-- The one port that admits a command (30_encoding.md R66). -/
def Instr.port : Instr → Port
  | .rxpush _ => .rxirq
  | .txdone => .dmairq
  | .rxrst | .rxpop _ | .txrst | .txenq _ | .txpump | .chOpen _ _ => .app

/-- `W[31:28]`, the opcode (30_encoding.md R60). -/
def opField (w : Word) : BitVec 4 := w.extractLsb' 28 4

/-- `W[7:0]`, the operand of format B (30_encoding.md R63). -/
def byteField (w : Word) : Byte := w.extractLsb' 0 8

/-- `W[15:0]`, the operand of format L (30_encoding.md R64). -/
def lenField (w : Word) : Nat := (w.extractLsb' 0 16).toNat

/-- `W[27:24]`, the first operand of format O (30_encoding.md R65). -/
def pinField (w : Word) : Nat := (w.extractLsb' 24 4).toNat

/-- `W[23:0]`, the second operand of format O (30_encoding.md R65). -/
def baudField (w : Word) : Nat := (w.extractLsb' 0 24).toNat

/-- The must-be-zero bits of format N, `W[27:0]`, are 0 (30_encoding.md R61). -/
def zeroN (w : Word) : Bool := w.extractLsb' 0 28 == 0#28

/-- The must-be-zero bits of format B, `W[27:8]`, are 0 (30_encoding.md R61). -/
def zeroB (w : Word) : Bool := w.extractLsb' 8 20 == 0#20

/-- The must-be-zero bits of format L, `W[27:16]`, are 0 (30_encoding.md R61). -/
def zeroL (w : Word) : Bool := w.extractLsb' 16 12 == 0#12

/-- The command if its must-be-zero bits are 0 (30_encoding.md R67(b)). -/
def ifZero (ok : Bool) (i : Instr) : Decoded := if ok then .command i else .invalid .mustBeZero

/-- The command a word stands for, whatever port it arrives on (30_encoding.md R62, R67(a) and (b)). -/
def decodeWord (w : Word) : Decoded :=
  match (opField w).toNat with
  | 1 => ifZero (zeroN w) .rxrst
  | 2 => ifZero (zeroB w) (.rxpush (byteField w))
  | 3 => ifZero (zeroL w) (.rxpop (lenField w))
  | 4 => ifZero (zeroN w) .txrst
  | 5 => ifZero (zeroL w) (.txenq (lenField w))
  | 6 => ifZero (zeroN w) .txpump
  | 7 => ifZero (zeroN w) .txdone
  | 8 => .command (.chOpen (pinField w) (baudField w))
  | _ => .invalid .unassignedOpcode

/-- The decoder of a port: a valid word is still invalid on a port that does not accept it (30_encoding.md
R67(c)). -/
def decode (p : Port) (w : Word) : Decoded :=
  match decodeWord w with
  | .command i => if i.port = p then .command i else .invalid .wrongPort
  | .invalid why => .invalid why

/-- The `match` column of the opcode map (30_encoding.md R62). -/
def Instr.matchBits : Instr → Word
  | .rxrst => 0x10000000#32
  | .rxpush _ => 0x20000000#32
  | .rxpop _ => 0x30000000#32
  | .txrst => 0x40000000#32
  | .txenq _ => 0x50000000#32
  | .txpump => 0x60000000#32
  | .txdone => 0x70000000#32
  | .chOpen _ _ => 0x80000000#32

/-- The `mask` column of the opcode map (30_encoding.md R62). -/
def Instr.maskBits : Instr → Word
  | .rxrst => 0xFFFFFFFF#32
  | .rxpush _ => 0xFFFFFF00#32
  | .rxpop _ => 0xFFFF0000#32
  | .txrst => 0xFFFFFFFF#32
  | .txenq _ => 0xFFFF0000#32
  | .txpump => 0xFFFFFFFF#32
  | .txdone => 0xFFFFFFFF#32
  | .chOpen _ _ => 0xF0000000#32

/-- The word of a well-formed command (30_encoding.md R61, R62). An operand out of range is cut to its field;
`assemble` refuses it. -/
def encode : Instr → Word
  | .rxrst => 0x10000000#32
  | .rxpush byte => 0x20000000#32 ||| byte.setWidth 32
  | .rxpop len => 0x30000000#32 ||| (BitVec.ofNat 16 len).setWidth 32
  | .txrst => 0x40000000#32
  | .txenq len => 0x50000000#32 ||| (BitVec.ofNat 16 len).setWidth 32
  | .txpump => 0x60000000#32
  | .txdone => 0x70000000#32
  | .chOpen pin baud =>
    0x80000000#32 ||| ((BitVec.ofNat 4 pin).setWidth 32 <<< 24) ||| (BitVec.ofNat 24 baud).setWidth 32

/-- The encoder that refuses what cannot be encoded (93_implementation_defined.md U20). -/
def assemble (i : Instr) : Option Word := if i.wf then some (encode i) else none

/-- Pseudo-command `SEND len` (30_encoding.md R71, 42_channel.md R131). -/
def pseudoSend (len : Nat) : Instr := .txenq len

/-- Pseudo-command `RECV len` (30_encoding.md R71, 42_channel.md R131). -/
def pseudoRecv (len : Nat) : Instr := .rxpop len

/-- Pseudo-command `IRQRX byte` (30_encoding.md R71, 42_channel.md R131). -/
def pseudoIrqrx (byte : Byte) : Instr := .rxpush byte

/-- Pseudo-command `IRQDMA` (30_encoding.md R71, 42_channel.md R131). -/
def pseudoIrqdma : Instr := .txdone

/-- Pseudo-command `CHOPEN pin, baud` (30_encoding.md R71, 42_channel.md R131). -/
def pseudoChopen (pin baud : Nat) : Instr := .chOpen pin baud

/-- A word given as the opcode table numbers its bits: every row has 32 bits, bit 0 the least significant. -/
def tableWord (nbits w : Nat) : Word := BitVec.ofNat 32 (w % 2 ^ nbits)

/-- What the decoder reads from a word of the opcode table. -/
def decodeTableWord (nbits w : Nat) : Option Instr :=
  match decodeWord (tableWord nbits w) with
  | .command i => some i
  | .invalid _ => none

end Sys2Proof
end

