-- ==== Sys2Proof/Machine/State.lean ====
section
/-! DEFINITION. The state of the block (10_state.md R13), what a claim may observe (00_scope.md R11), the
environment's inputs (00_scope.md R10), the reasons a step can stop, and the state after `rst` (10_state.md R34). -/

namespace Sys2Proof.Machine

/-- A byte memory: the cells that hold something other than what an unlisted address reads as, addresses
strictly rising. -/
abbrev Mem := List Host.Cell

/-- `tx.dmaState` (10_state.md R20). -/
inductive DmaState where
  /-- "no block ever sent / queue drained and DMA engine stopped", code 0. -/
  | idle
  /-- "DMA actively moving the oldest queued block to the peripheral", code 1. -/
  | transmitting
  /-- "the engine has signaled completion of the current block but the queue has not yet been re-armed",
  code 2. -/
  | transferDone
  deriving DecidableEq, Repr

/-- The status every command returns (60_exceptions.md R135). -/
inductive Status where
  | ok
  | overflow
  | underflow
  | queueFull
  | invalidArgument
  | openFailed
  deriving DecidableEq, Repr

/-- The RX ring (10_state.md R14, R29). -/
structure RxRing where
  /-- `rx.mem`, the space RXMEM. -/
  mem : Mem
  /-- "next write index". -/
  head : Nat
  /-- "next read index". -/
  tail : Nat
  /-- "bytes currently held". -/
  count : Nat
  deriving DecidableEq, Repr

/-- The TX block queue (10_state.md R15, R20, R21, R30). -/
structure TxQueue where
  /-- `tx.blk`, the space TXMEM: the bytes written since the last `rst`. -/
  blk : Mem
  /-- `tx.used`, one entry per slot. -/
  used : List Nat
  /-- "next block to fill". -/
  head : Nat
  /-- "oldest unsent block". -/
  tail : Nat
  /-- "blocks currently queued". -/
  count : Nat
  dmaState : DmaState
  deriving DecidableEq, Repr

/-- The DMA interface registers (10_state.md R24 to R27). -/
structure DmaRegs where
  en : Bool
  tcie : Bool
  blk : Nat
  len : Nat
  deriving DecidableEq, Repr

/-- The channel registers (10_state.md R28). -/
structure Channel where
  rxIrqEn : Bool
  clkEn : Bool
  deriving DecidableEq, Repr

/-- One entry `(b, n, bytes)` of the arm trace (00_scope.md R11). -/
structure ArmEntry where
  slot : Nat
  len : Nat
  bytes : List Byte
  deriving DecidableEq, Repr

/-- What a command answers: its status (30_encoding.md R69), the APPIN bytes it read and the APPOUT bytes it
wrote (30_encoding.md R68; both empty on an error). -/
structure Response where
  cmd : Instr
  status : Status
  appIn : List Byte
  appOut : List Byte
  deriving DecidableEq, Repr

/-- What a step emits (00_scope.md R10 to R12). Not hardware state; no command reads it. -/
inductive Event where
  /-- A command's answer to the port that presented it. -/
  | returned (r : Response)
  /-- An entry of the ghost arm trace (41_tx_queue.md R111). -/
  | armed (e : ArmEntry)
  /-- The pulse `dma_clr` (41_tx_queue.md R110). -/
  | dmaClr
  /-- The pulse `cfg_req(baud, pin)` (42_channel.md R126). -/
  | cfgReq (baud pin : Nat)
  deriving DecidableEq, Repr

/-- A command word presented on a port, with the bytes of APPIN that come with it (30_encoding.md R66, R68). -/
structure Request where
  port : Port
  word : Word
  appIn : List Byte
  deriving DecidableEq, Repr

/-- What the environment does to the block: present a command, or assert the reset input (10_state.md R34). -/
inductive Input where
  | command (r : Request)
  | rst
  deriving DecidableEq, Repr

/-- The machine. `cfg` is the configuration, constant in every run; `rx`, `tx`, `dma` and `ch` are the block's
complete state (10_state.md R13); `inputs` and `appIn` are the environment's, `events` is what was emitted and
`resets` counts the assertions of `rst`, for the free value of Config.lean. -/
structure State where
  cfg : Params
  rx : RxRing
  tx : TxQueue
  dma : DmaRegs
  ch : Channel
  /-- The inputs still to come, in the order the arbiter takes them (60_exceptions.md R148). -/
  inputs : List Input
  /-- APPIN of the command being executed (20_memory.md R40). -/
  appIn : List Byte
  /-- Everything emitted since the last `rst`, oldest first. -/
  events : List Event
  /-- The model's own counter of hardware resets. -/
  resets : Nat
  deriving DecidableEq, Repr

/-- Why the machine stops with a fault. -/
inductive Fault where
  /-- A completion event the DMA engine had no cause to raise: `TXDONE` outside `Transmitting`
  (41_tx_queue.md R116), or a DMAIRQ command while `dma.tcie` or `dma.en` is 0 (60_exceptions.md R146).
  Raised by `execTxdone` and by the fetch. Safe: the spec's own fault. -/
  | spuriousCompletion
  /-- A `TXENQ len` that would succeed came with fewer than `len` bytes of APPIN, against the caller's duty
  (30_encoding.md R68, 70_reset_and_hazards.md R177(a)). Raised by `execTxenq`. Safe: the spec gives the missing
  bytes no value. -/
  | appInMissing
  /-- The command would form an access outside its address space, a division by a zero parameter or a
  subtraction below zero, which the spec says cannot be formed (20_memory.md R43, 00_scope.md R12). Raised by
  the commands that index a slot; no state that meets the invariant raises it. Safe. -/
  | unformable
  deriving DecidableEq, Repr

/-- Why the machine gives a word no meaning. -/
inductive Refusal where
  /-- An instruction whose meaning is not modelled. Raised by no arm of this model. Safe. -/
  | notModelled (mnemonic : String)
  /-- An invalid word, which the block gives no meaning (30_encoding.md R67, 60_exceptions.md R150). Raised by
  the fetch. Safe: the spec's own refusal. -/
  | invalidWord (why : Invalid)
  deriving DecidableEq, Repr

/-- The state after `rst` in configuration `p` (10_state.md R34), with no input to come. `tx.blk` lists
nothing: every byte of it is the free value. -/
def State.ofRst (p : Params) : State where
  cfg := p
  rx := { mem := [], head := 0, tail := 0, count := 0 }
  tx := { blk := [], used := List.replicate p.nb 0, head := 0, tail := 0, count := 0, dmaState := .idle }
  dma := { en := false, tcie := false, blk := 0, len := 0 }
  ch := { rxIrqEn := false, clkEn := false }
  inputs := []
  appIn := []
  events := []
  resets := 0

/-- The state right after reset, in the reference configuration (assumption 1). -/
def State.reset : State := State.ofRst Params.reference

end Sys2Proof.Machine
end

