-- ==== Sys2Proof/Machine/Ops.lean ====
section
/-! DEFINITION. The named operations on memories, registers and outputs: one byte read and written in RXMEM and
TXMEM (20_memory.md R40, R45), the numeric codes (10_state.md R20, 60_exceptions.md R135), the answer of a command
and the one way to report an error (00_scope.md R12 `raise`; there is no trap to take, 60_exceptions.md R141),
and the hardware reset (70_reset_and_hazards.md R165). -/

namespace Sys2Proof.Machine

/-! ### Byte memories -/

/-- The value listed for an address, if any. -/
def Mem.find : Mem → Nat → Option Byte
  | [], _ => none
  | c :: m, a => if c.1 = a then some c.2 else Mem.find m a

/-- List a value for an address, keeping the addresses in rising order. -/
def Mem.set : Mem → Nat → Byte → Mem
  | [], a, v => [(a, v)]
  | c :: m, a, v =>
    if a < c.1 then (a, v) :: c :: m
    else if a = c.1 then (a, v) :: m
    else c :: Mem.set m a v

/-- List nothing for an address. -/
def Mem.erase (m : Mem) (a : Nat) : Mem := m.filter (fun c => c.1 != a)

/-- Write one byte: the entry goes if the address then reads what an unlisted address reads. -/
def Mem.write (unlisted : Option Byte) (m : Mem) (a : Nat) (v : Byte) : Mem :=
  if unlisted = some v then Mem.erase m a else Mem.set m a v

/-- Write a run of bytes from an address upward. -/
def Mem.writeRun (unlisted : Option Byte) : Mem → Nat → List Byte → Mem
  | m, _, [] => m
  | m, a, v :: vs => Mem.writeRun unlisted (Mem.write unlisted m a v) (a + 1) vs

/-- The canonical form of a memory of `size` bytes: addresses strictly rising and inside the space, no entry
equal to what an unlisted address reads as. -/
abbrev Mem.wf (unlisted : Option Byte) (size : Nat) (m : Mem) : Prop :=
  m.Pairwise (fun c d => c.1 < d.1) ∧ ∀ c ∈ m, c.1 < size ∧ unlisted ≠ some c.2

/-- What an unlisted address of RXMEM reads as: 0, the value `rst` and `RXRST` leave (10_state.md R34). -/
def rxUnlisted : Option Byte := some 0#8

/-- What an unlisted address of TXMEM reads as: no value of the model's, the byte is free (10_state.md R34). -/
def txUnlisted : Option Byte := none

/-- Both memories of the block are in canonical form: RXMEM has RC bytes, TXMEM NB*BS (20_memory.md R40). -/
abbrev Memory.wf (s : State) : Prop :=
  Mem.wf rxUnlisted s.cfg.rc s.rx.mem ∧ Mem.wf txUnlisted (s.cfg.nb * s.cfg.bs) s.tx.blk

/-- `MemRead(RXMEM, a, 1)`. -/
def State.rxRead (s : State) (a : Nat) : Byte := ((Mem.find s.rx.mem a).or rxUnlisted).getD 0#8

/-- The TXMEM address of byte `i` of slot `b` (20_memory.md R45). -/
def State.txAddr (s : State) (b i : Nat) : Nat := b * s.cfg.bs + i

/-- `MemRead(TXMEM, a, 1)`: the byte written since the last `rst`, or the free value. -/
def State.txRead (s : State) (a : Nat) : Byte :=
  ((Mem.find s.tx.blk a).or txUnlisted).getD (Config.txResetByte s.resets a)

/-- The first `n` bytes of slot `b`, `tx.blk[b][0 .. n-1]`. -/
def State.slotBytes (s : State) (b n : Nat) : List Byte :=
  (List.range n).map fun i => s.txRead (s.txAddr b i)

/-- `tx.used[b]` (10_state.md R21). -/
def State.usedAt (s : State) (b : Nat) : Nat := s.tx.used.getD b 0

/-- Slot `b` is one of the NB slots, and so has an entry in `tx.used` (10_state.md R13). -/
def State.slotExists (s : State) (b : Nat) : Bool := decide (b < s.cfg.nb) && decide (b < s.tx.used.length)

/-! ### Numeric codes -/

/-- The 2-bit code of `tx.dmaState` (10_state.md R20). -/
def DmaState.code : DmaState → BitVec 2
  | .idle => 0
  | .transmitting => 1
  | .transferDone => 2

/-- The 4-bit code of a status (60_exceptions.md R135). -/
def Status.code : Status → BitVec 4
  | .ok => 0
  | .overflow => 1
  | .underflow => 2
  | .queueFull => 3
  | .invalidArgument => 4
  | .openFailed => 5

/-! ### Outputs -/

/-- Emit one event. -/
def State.emit (s : State) (e : Event) : State := { s with events := s.events ++ [e] }

/-- End a command with a status, the APPIN bytes it read and the APPOUT bytes it wrote. -/
def State.answer (s : State) (i : Instr) (st : Status) (inp out : List Byte) : State :=
  s.emit (.returned { cmd := i, status := st, appIn := inp, appOut := out })

/-- `raise st`: end a command with an error status; nothing was written, read or emitted before it
(00_scope.md R12, 60_exceptions.md R139). -/
def State.raise (s : State) (i : Instr) (st : Status) : State := s.answer i st [] []

/-- The entry of the arm trace an event holds, if it is an arm. -/
def Event.arm? : Event → Option ArmEntry
  | .armed e => some e
  | .returned _ | .dmaClr | .cfgReq _ _ => none

/-- The ghost arm trace `txTrace` (00_scope.md R11(d)). -/
def State.txTrace (s : State) : List ArmEntry := s.events.filterMap Event.arm?

/-- `dma_addr`, the address the DMA engine is given (10_state.md R26, 20_memory.md R45). -/
def State.dmaAddr (s : State) : Nat := s.dma.blk * s.cfg.bs

/-- The bytes the DMA engine reads while it is armed, ascending from `dma_addr` (20_memory.md R52). -/
def State.dmaBytes (s : State) : List Byte := (List.range s.dma.len).map fun i => s.txRead (s.dmaAddr + i)

/-! ### Resets -/

/-- `RXRST` as a sub-operation: all slots 0, all three registers 0 (40_rx_ring.md R81). -/
def State.rxClear (s : State) : State :=
  { s with rx := { mem := [], head := 0, tail := 0, count := 0 } }

/-- `TXRST` as a sub-operation (41_tx_queue.md R96): `tx.blk`, `dma.tcie`, `dma.blk` and `dma.len` keep their
values. -/
def State.txClear (s : State) : State :=
  { s with
    tx := { s.tx with used := List.replicate s.cfg.nb 0, head := 0, tail := 0, count := 0, dmaState := .idle }
    dma := { s.dma with en := false } }

/-- The hardware reset (70_reset_and_hazards.md R165): everything at its value of 10_state.md R34, fresh free
bytes in `tx.blk`; the configuration and the inputs still to come are not the block's. -/
def State.hardReset (s : State) : State :=
  { State.ofRst s.cfg with inputs := s.inputs, resets := s.resets + 1 }

/-- The end of a command whose slots may not exist: a fault, or the next state. -/
def formed : Option State → Host.Outcome State Fault Refusal
  | none => .fault .unformable
  | some t => .next t

end Sys2Proof.Machine
end

