-- ==== Sys2Proof/Machine/Operands.lean ====
section
/-! DEFINITION. What a command does with its operands: the run of bytes a pop delivers (40_rx_ring.md R86), the
number of blocks a send request needs (41_tx_queue.md R101), and the pin test (42_channel.md R127). -/

namespace Sys2Proof.Machine

/-- The `n` oldest bytes of the ring, `rx.mem[(rx.tail + j) mod RC]` for `j = 0 .. n-1` (40_rx_ring.md R86). -/
def State.rxRun (s : State) (n : Nat) : List Byte :=
  (List.range n).map fun j => s.rxRead ((s.rx.tail + j) % s.cfg.rc)

/-- The valid unread bytes, oldest first (10_state.md R18). -/
def State.rxWindow (s : State) : List Byte := s.rxRun s.rx.count

/-- `ceil(len / BS)`, the blocks a request of `len` bytes needs (41_tx_queue.md R101, 00_scope.md R12). -/
def blocksNeeded (bs len : Nat) : Nat := (len + bs - 1) / bs

/-- `PIN_SUPPORTED(pin)` (42_channel.md R127). -/
def pinSupported (p : Params) (pin : Nat) : Bool := p.pins.getLsbD pin

end Sys2Proof.Machine
end

