-- ==== Sys2Proof/Machine/Channel.lean ====
section
/-! DEFINITION. The channel command `OPEN` (42_channel.md). -/

namespace Sys2Proof.Machine

/-- `OPEN pin, baud` (42_channel.md R126 to R130): a pin that is not supported changes nothing; otherwise clocks
on, the configuration pulse, both engines reset, and last the receive interrupt enabled. -/
def execChOpen (pin baud : Nat) (s : State) : Host.Outcome State Fault Refusal :=
  if pinSupported s.cfg pin then
    let clocked := { s with ch := { s.ch with clkEn := true } }
    let cleared := (clocked.emit (.cfgReq baud pin)).rxClear.txClear
    let opened := { cleared with ch := { cleared.ch with rxIrqEn := true } }
    .next (opened.answer (.chOpen pin baud) .ok [] [])
  else .next (s.raise (.chOpen pin baud) .openFailed)

end Sys2Proof.Machine
end

