-- ==== Sys2Proof/Machine/Flags.lean ====
section
/-! DEFINITION. The four derived flags (10_state.md R17): functions of the counts, never of head and tail. -/

namespace Sys2Proof.Machine

/-- `rx.full` (10_state.md R17). -/
def State.rxFull (s : State) : Bool := s.rx.count == s.cfg.rc

/-- `rx.empty` (10_state.md R17). -/
def State.rxEmpty (s : State) : Bool := s.rx.count == 0

/-- `tx.full` (10_state.md R17). -/
def State.txFull (s : State) : Bool := s.tx.count == s.cfg.nb

/-- `tx.empty` (10_state.md R17). -/
def State.txEmpty (s : State) : Bool := s.tx.count == 0

end Sys2Proof.Machine
end

