-- ==== Sys2Proof/Machine/RxRing.lean ====
section
/-! DEFINITION. The RX ring commands `RXRST`, `RXPUSH`, `RXPOP` (40_rx_ring.md). -/

namespace Sys2Proof.Machine

/-- Write a byte at `rx.head`, advance the head circularly, count it (40_rx_ring.md R83). -/
def State.rxStore (s : State) (byte : Byte) : Option State :=
  if s.rx.head < s.cfg.rc then
    some { s with
      rx := { s.rx with
        mem := Mem.write rxUnlisted s.rx.mem s.rx.head byte
        head := (s.rx.head + 1) % s.cfg.rc
        count := s.rx.count + 1 } }
  else none

/-- Advance `rx.tail` past `len` bytes (40_rx_ring.md R86); `len` is at most `rx.count`. RXMEM is not written. -/
def State.rxDrop (s : State) (len : Nat) : State :=
  { s with rx := { s.rx with tail := (s.rx.tail + len) % s.cfg.rc, count := s.rx.count - len } }

/-- `RXRST` (40_rx_ring.md R81). -/
def execRxrst (s : State) : Host.Outcome State Fault Refusal :=
  .next (s.rxClear.answer .rxrst .ok [] [])

/-- `RXPUSH byte` (40_rx_ring.md R83, R84): the newest byte is rejected, the oldest never evicted. -/
def execRxpush (byte : Byte) (s : State) : Host.Outcome State Fault Refusal :=
  if s.rxFull then .next (s.raise (.rxpush byte) .overflow)
  else formed ((s.rxStore byte).map fun t => t.answer (.rxpush byte) .ok [] [])

/-- `RXPOP len` (40_rx_ring.md R86, R88): all `len` bytes or none. -/
def execRxpop (len : Nat) (s : State) : Host.Outcome State Fault Refusal :=
  if s.rx.count < len then .next (s.raise (.rxpop len) .underflow)
  else if s.cfg.rc = 0 then .fault .unformable
  else .next ((s.rxDrop len).answer (.rxpop len) .ok [] (s.rxRun len))

end Sys2Proof.Machine
end

