-- ==== Sys2Proof/Machine/TxQueue.lean ====
section
/-! DEFINITION. The TX block queue and the DMA state machine: the commands `TXRST`, `TXENQ`, `TXPUMP`, `TXDONE` and
the pump step they share (41_tx_queue.md). -/

namespace Sys2Proof.Machine

/-! ### The pump step -/

/-- Retire the oldest block (41_tx_queue.md R110). It runs where `tx.count >= 1`. -/
def State.retire (s : State) : Option State :=
  if s.slotExists s.tx.tail ∧ 0 < s.tx.count then
    some (State.emit { s with
      tx := { s.tx with
        used := s.tx.used.set s.tx.tail 0
        tail := (s.tx.tail + 1) % s.cfg.nb
        count := s.tx.count - 1 } } .dmaClr)
  else none

/-- Program and enable the DMA engine with the oldest queued block (41_tx_queue.md R111). -/
def State.arm (s : State) : Option State :=
  if s.slotExists s.tx.tail ∧ s.usedAt s.tx.tail ≤ s.cfg.bs then
    some (State.emit { s with
      dma := { en := true, tcie := true, blk := s.tx.tail, len := s.usedAt s.tx.tail }
      tx := { s.tx with dmaState := .transmitting } }
      (.armed { slot := s.tx.tail
                len := s.usedAt s.tx.tail
                bytes := s.slotBytes s.tx.tail (s.usedAt s.tx.tail) }))
  else none

/-- Disable the DMA engine: nothing to send (41_tx_queue.md R112). -/
def State.goIdle (s : State) : State :=
  { s with dma := { s.dma with en := false }, tx := { s.tx with dmaState := .idle } }

/-- The pump step after any retire (41_tx_queue.md R108): arm the oldest block, or go idle. -/
def State.armOrIdle (s : State) : Option State := if s.txEmpty then some s.goIdle else s.arm

/-- The pump step `checkAndAdvance()` (41_tx_queue.md R108, R109). `Transmitting` is a no-op on purpose (R113). -/
def State.pump (s : State) : Option State :=
  match s.tx.dmaState with
  | .transmitting => some s
  | .transferDone => s.retire.bind State.armOrIdle
  | .idle => s.armOrIdle

/-! ### Queueing a send request -/

/-- Write one block into the slot at `tx.head`, record its size, advance the head, count it
(41_tx_queue.md R101). -/
def State.fillBlock (s : State) (bytes : List Byte) : Option State :=
  if s.slotExists s.tx.head then
    some { s with
      tx := { s.tx with
        blk := Mem.writeRun txUnlisted s.tx.blk (s.txAddr s.tx.head 0) bytes
        used := s.tx.used.set s.tx.head bytes.length
        head := (s.tx.head + 1) % s.cfg.nb
        count := s.tx.count + 1 } }
  else none

/-- Split the data into `k` successive blocks of up to BS bytes and fill one slot with each
(41_tx_queue.md R101, R102). -/
def State.fillBlocks : Nat → List Byte → State → Option State
  | 0, _, s => some s
  | k + 1, data, s =>
    (s.fillBlock (data.take s.cfg.bs)).bind (State.fillBlocks k (data.drop s.cfg.bs))

/-! ### The commands -/

/-- `TXRST` (41_tx_queue.md R96). -/
def execTxrst (s : State) : Host.Outcome State Fault Refusal :=
  .next (s.txClear.answer .txrst .ok [] [])

/-- `TXENQ len` (41_tx_queue.md R101 to R105): the whole request or nothing. -/
def execTxenq (len : Nat) (s : State) : Host.Outcome State Fault Refusal :=
  if len = 0 then .next (s.raise (.txenq len) .invalidArgument)
  else if s.cfg.bs = 0 then .fault .unformable
  else if s.cfg.nb < s.tx.count + blocksNeeded s.cfg.bs len then .next (s.raise (.txenq len) .queueFull)
  else if s.appIn.length < len then .fault .appInMissing
  else
    formed (((State.fillBlocks (blocksNeeded s.cfg.bs len) (s.appIn.take len) s).bind State.pump).map fun t =>
      t.answer (.txenq len) .ok (s.appIn.take len) [])

/-- `TXPUMP` (41_tx_queue.md R108). -/
def execTxpump (s : State) : Host.Outcome State Fault Refusal :=
  formed (s.pump.map fun t => t.answer .txpump .ok [] [])

/-- `TXDONE` (41_tx_queue.md R115, R116). -/
def execTxdone (s : State) : Host.Outcome State Fault Refusal :=
  if s.tx.dmaState = .transmitting then
    formed ((State.pump { s with tx := { s.tx with dmaState := .transferDone } }).map fun t =>
      t.answer .txdone .ok [] [])
  else .fault .spuriousCompletion

end Sys2Proof.Machine
end

