-- ==== Sys2Proof/Machine/Dispatch.lean ====
section
/-! DEFINITION. The meaning of every command, one arm per constructor (30_encoding.md R62). -/

namespace Sys2Proof.Machine

def exec (i : Instr) (s : State) : Host.Outcome State Fault Refusal :=
  match i with
  | .rxrst => Sys2Proof.Machine.execRxrst s
  | .rxpush byte => Sys2Proof.Machine.execRxpush byte s
  | .rxpop len => Sys2Proof.Machine.execRxpop len s
  | .txrst => Sys2Proof.Machine.execTxrst s
  | .txenq len => Sys2Proof.Machine.execTxenq len s
  | .txpump => Sys2Proof.Machine.execTxpump s
  | .txdone => Sys2Proof.Machine.execTxdone s
  | .chOpen pin baud => Sys2Proof.Machine.execChOpen pin baud s

end Sys2Proof.Machine
end

