-- ==== Sys2Proof/Machine/Fetch.lean ====
section
/-! DEFINITION. How the block comes to its next command (00_scope.md R10, 30_encoding.md R66, 60_exceptions.md
R145, R146): the first input that can be delivered is taken, its word is decoded for its port, and a completion
the DMA engine had no cause to raise faults. Also how a word is presented to the block. -/

namespace Sys2Proof.Machine

/-- What the fetch finds. -/
inductive Fetched where
  /-- No input can be delivered: the block awaits the next command. -/
  | nothing
  /-- The reset input: the state after `rst`. -/
  | reset (t : State)
  /-- An invalid word (30_encoding.md R67). -/
  | invalid (why : Invalid)
  /-- A completion event while the DMAIRQ port may present none (60_exceptions.md R146). -/
  | spurious
  /-- A command, and the state it runs in: the input taken, its payload in APPIN. -/
  | command (i : Instr) (t : State)
  deriving DecidableEq, Repr

/-- Whether an input can be delivered now: the RXIRQ agent has no step while `ch.rxIrqEn` is 0
(60_exceptions.md R145). -/
def State.delivers (s : State) : Input → Bool
  | .rst => true
  | .command r => decide (r.port ≠ .rxirq) || s.ch.rxIrqEn

/-- The first input of a list that can be delivered, and the others in their order. -/
def takeFirst (can : Input → Bool) : List Input → Option (Input × List Input)
  | [] => none
  | x :: xs => if can x then some (x, xs) else (takeFirst can xs).map fun y => (y.1, x :: y.2)

/-- Whether the DMAIRQ port may deliver an event: `dma.tcie == 1` and `dma.en == 1` (60_exceptions.md R146;
that the latest arm is unanswered is `execTxdone`'s test of `Transmitting`). -/
def State.dmaIrqOpen (s : State) : Bool := s.dma.tcie && s.dma.en

/-- A command that has been taken from the inputs: decoded for its port, then the DMAIRQ port's condition. -/
def State.accept (s : State) (r : Request) (rest : List Input) : Fetched :=
  match decode r.port r.word with
  | .invalid why => .invalid why
  | .command i =>
    if r.port = .dmairq ∧ s.dmaIrqOpen = false then .spurious
    else .command i { s with inputs := rest, appIn := r.appIn }

/-- The block's next command, or why there is none. -/
def State.fetch (s : State) : Fetched :=
  match takeFirst s.delivers s.inputs with
  | none => .nothing
  | some (.rst, rest) => .reset (State.hardReset { s with inputs := rest })
  | some (.command r, rest) => s.accept r rest

/-- The port that admits a word; APP for an invalid one (30_encoding.md R66). -/
def wordPort (w : Word) : Port :=
  match decodeWord w with
  | .command i => i.port
  | .invalid _ => .app

/-- A payload of zeros for a word: the `len` bytes that accompany a `TXENQ len` (30_encoding.md R68). -/
def wordAppIn (w : Word) : List Byte :=
  match decodeWord w with
  | .command (.txenq len) => List.replicate len 0#8
  | _ => []

/-- Present a word as the first input, on its own port and with its payload, with the enable bits its port needs
to deliver it set (60_exceptions.md R145, R146). -/
def State.present (s : State) (w : Word) : State :=
  { s with
    inputs := .command { port := wordPort w, word := w, appIn := wordAppIn w } :: s.inputs
    ch := { s.ch with rxIrqEn := s.ch.rxIrqEn || decide (wordPort w = .rxirq) }
    dma := { s.dma with
      tcie := s.dma.tcie || decide (wordPort w = .dmairq)
      en := s.dma.en || decide (wordPort w = .dmairq) } }

end Sys2Proof.Machine
end

