-- ==== Sys2Proof/Machine/Step.lean ====
section
/-! DEFINITION. One step of the block: one command executed to completion (00_scope.md R10, 20_memory.md R47), or
the reset input, or nothing to do. -/

namespace Sys2Proof.Machine

/-- Take the next input and execute it. With nothing to deliver the block waits and nothing changes
(10_state.md R34: "the block executes nothing until a command arrives"). -/
def step (s : State) : Host.Outcome State Fault Refusal :=
  match s.fetch with
  | .nothing => .next s
  | .reset t => .next t
  | .invalid why => .refused (.invalidWord why)
  | .spurious => .fault .spuriousCompletion
  | .command i t => exec i t

/-- `s` with a word of the opcode table presented next, so that the next step executes exactly it
(assumption 14). -/
def State.withFetchWord (s : State) (nbits w : Nat) : State := s.present (tableWord nbits w)

end Sys2Proof.Machine
end

