-- ==== Sys2Proof/Safety.lean ====
section
/-! DEFINITION. The terms in which claims about the block are stated: its invariants (10_state.md R18, R22, R23),
what the emitted events say was accepted and delivered (20_memory.md R49), the duties of the environment
(70_reset_and_hazards.md R174, R177), and runs of commands. -/

namespace Sys2Proof

/-! ### Families of commands -/

/-- The RX commands (40_rx_ring.md). -/
def Instr.isRx : Instr → Bool
  | .rxrst | .rxpush _ | .rxpop _ => true
  | .txrst | .txenq _ | .txpump | .txdone | .chOpen _ _ => false

/-- The TX commands (41_tx_queue.md). -/
def Instr.isTx : Instr → Bool
  | .txrst | .txenq _ | .txpump | .txdone => true
  | .rxrst | .rxpush _ | .rxpop _ | .chOpen _ _ => false

end Sys2Proof

namespace Sys2Proof.Machine

/-! ### Invariants -/

/-- The RX invariant (10_state.md R18). -/
abbrev State.rxInv (s : State) : Prop :=
  s.rx.count ≤ s.cfg.rc ∧ s.rx.head < s.cfg.rc ∧ s.rx.tail < s.cfg.rc ∧
    s.rx.head = (s.rx.tail + s.rx.count) % s.cfg.rc

/-- The `j`-th slot from the tail; queued while `j < tx.count`, free after (00_scope.md §7). -/
def State.slotAt (s : State) (j : Nat) : Nat := (s.tx.tail + j) % s.cfg.nb

/-- The TX invariant (10_state.md R22) with the used sizes of R21. -/
abbrev State.txInv (s : State) : Prop :=
  s.tx.count ≤ s.cfg.nb ∧ s.tx.head < s.cfg.nb ∧ s.tx.tail < s.cfg.nb ∧
    s.tx.head = (s.tx.tail + s.tx.count) % s.cfg.nb ∧ s.tx.used.length = s.cfg.nb ∧
    (∀ j < s.cfg.nb, j < s.tx.count → 1 ≤ s.usedAt (s.slotAt j) ∧ s.usedAt (s.slotAt j) ≤ s.cfg.bs) ∧
    (∀ j < s.cfg.nb, s.tx.count ≤ j → s.usedAt (s.slotAt j) = 0)

/-- The rest-state lemma's three facts (10_state.md R23). -/
abbrev State.restInv (s : State) : Prop :=
  (s.tx.dmaState = .idle → s.tx.count = 0 ∧ s.dma.en = false) ∧
    (s.tx.dmaState = .transmitting →
      1 ≤ s.tx.count ∧ s.dma.en = true ∧ s.dma.tcie = true ∧ s.dma.blk = s.tx.tail ∧
        s.dma.len = s.usedAt s.tx.tail) ∧
    s.tx.dmaState ≠ .transferDone

/-- The ranges of the DMA interface registers (10_state.md R26, R27). -/
abbrev State.dmaInv (s : State) : Prop := s.dma.blk < s.cfg.nb ∧ s.dma.len ≤ s.cfg.bs

/-- The invariant of the block between commands. -/
abbrev State.Inv (s : State) : Prop :=
  s.cfg.wf ∧ Memory.wf s ∧ s.rxInv ∧ s.txInv ∧ s.restInv ∧ s.dmaInv

/-- Every byte of a queued block has been written since the last `rst` (10_state.md R34: `tx.blk` is "never read
before written"). -/
abbrev State.writtenInv (s : State) : Prop :=
  ∀ j < s.tx.count, ∀ i < s.usedAt (s.slotAt j), (Mem.find s.tx.blk (s.txAddr (s.slotAt j) i)).isSome = true

/-- While a block is in flight, the latest arm is of that block and the engine's bytes are still the bytes of
the arm (20_memory.md R53). -/
abbrev State.inFlightInv (s : State) : Prop :=
  s.tx.dmaState = .transmitting →
    s.txTrace.getLast? = some { slot := s.dma.blk, len := s.dma.len, bytes := s.dmaBytes }

/-! ### What was accepted and delivered -/

/-- The bytes one engine accepted and the bytes it delivered, since its last reset. -/
structure ByteFlow where
  accepted : List Byte
  delivered : List Byte
  deriving DecidableEq, Repr

/-- One event's part in the flow of received bytes: successful pushes accept, successful pops deliver, resets
discard (20_memory.md R49). -/
def rxFlowStep (f : ByteFlow) : Event → ByteFlow
  | .returned r =>
    match r.cmd, r.status with
    | .rxpush b, .ok => { f with accepted := f.accepted ++ [b] }
    | .rxpop _, .ok => { f with delivered := f.delivered ++ r.appOut }
    | .rxrst, .ok => { accepted := [], delivered := [] }
    | .chOpen _ _, .ok => { accepted := [], delivered := [] }
    | _, _ => f
  | _ => f

/-- The received bytes accepted and delivered since the last reset of the RX ring. -/
def State.rxFlow (s : State) : ByteFlow := s.events.foldl rxFlowStep { accepted := [], delivered := [] }

/-- One event's part in the flow of transmitted bytes: successful enqueues accept, arms deliver to the DMA
engine, resets discard (20_memory.md R49, 41_tx_queue.md R117). -/
def txFlowStep (f : ByteFlow) : Event → ByteFlow
  | .returned r =>
    match r.cmd, r.status with
    | .txenq _, .ok => { f with accepted := f.accepted ++ r.appIn }
    | .txrst, .ok => { accepted := [], delivered := [] }
    | .chOpen _ _, .ok => { accepted := [], delivered := [] }
    | _, _ => f
  | .armed e => { f with delivered := f.delivered ++ e.bytes }
  | _ => f

/-- The transmitted bytes accepted and armed since the last reset of the TX queue. -/
def State.txFlow (s : State) : ByteFlow := s.events.foldl txFlowStep { accepted := [], delivered := [] }

/-- The payload of the queued blocks from the `d`-th oldest on, in drain order. -/
def State.queuedFrom (s : State) (d : Nat) : List Byte :=
  (List.range (s.tx.count - d)).flatMap fun j => s.slotBytes (s.slotAt (d + j)) (s.usedAt (s.slotAt (d + j)))

/-- The payload of the queued blocks that have not been armed: all but the one in flight. -/
def State.waitingBytes (s : State) : List Byte :=
  s.queuedFrom (if s.tx.dmaState = .transmitting then 1 else 0)

/-- Received bytes: accepted = delivered, then the ring's valid window (20_memory.md R49, 40_rx_ring.md R89). -/
abbrev State.rxFlowInv (s : State) : Prop := s.rxFlow.accepted = s.rxFlow.delivered ++ s.rxWindow

/-- Transmitted bytes: accepted = armed, then the blocks still waiting (20_memory.md R49, 41_tx_queue.md
R117). -/
abbrev State.txFlowInv (s : State) : Prop := s.txFlow.accepted = s.txFlow.delivered ++ s.waitingBytes

/-! ### Comparing states, the environment, runs -/

/-- The two states hold the same configuration and the same block state (10_state.md R13). -/
abbrev State.sameBlock (s t : State) : Prop :=
  t.cfg = s.cfg ∧ t.rx = s.rx ∧ t.tx = s.tx ∧ t.dma = s.dma ∧ t.ch = s.ch

/-- The environment does its part for a command: a TXENQ comes with its `len` bytes (70_reset_and_hazards.md
R177(a)), a TXDONE answers an arm (R174(a), (c)). -/
def State.dutiful (s : State) : Instr → Bool
  | .txenq len => decide (len ≤ s.appIn.length)
  | .txdone => decide (s.tx.dmaState = .transmitting)
  | .rxrst | .rxpush _ | .rxpop _ | .txrst | .txpump | .chOpen _ _ => true

/-- The opcodes a port admits (30_encoding.md R66). -/
def portAdmits : Port → Nat → Bool
  | .app, op => decide (op = 1 ∨ op = 3 ∨ op = 4 ∨ op = 5 ∨ op = 6 ∨ op = 8)
  | .rxirq, op => decide (op = 2)
  | .dmairq, op => decide (op = 7)

/-- Execute commands one after another, up to the first fault or refusal. -/
def execAll : List Instr → State → Host.Outcome State Fault Refusal
  | [], s => .next s
  | i :: is, s =>
    match exec i s with
    | .next t => execAll is t
    | .fault f => .fault f
    | .refused r => .refused r

end Sys2Proof.Machine
end

