-- ==== Sys2Proof/Certificates/Slice0/Obligations.lean ====
section
/-! DEFINITION. The statements for the provers, each from a numbered rule of spec/ or a section of it. -/

open Sys2Proof Sys2Proof.Machine

/-! ### Encoding -/

/-- 30_encoding.md R60 to R65: a command whose operands fit their fields is what its word decodes to on its
port. -/
def Obligations.DecodeOfEncodeIsTheCommand : Prop :=
  ∀ i : Instr, i.wf = true → decode i.port (encode i) = .command i

/-- 30_encoding.md R61, R67: no two words decode to one command, and only commands in range are decoded. -/
def Obligations.EncodeOfDecodeIsTheWord : Prop :=
  ∀ (p : Port) (w : Word) (i : Instr), decode p w = .command i → encode i = w ∧ i.wf = true ∧ i.port = p

/-- 30_encoding.md R62: "a word `W` is the command iff `W & mask == match`", row by row, with each row's port. -/
def Obligations.WordIsCommandIffMaskMatches : Prop :=
  (∀ w : Word,
    (w &&& 0xFFFFFFFF#32 = 0x10000000#32 ↔ decodeWord w = .command .rxrst) ∧
    (w &&& 0xFFFFFF00#32 = 0x20000000#32 ↔ ∃ byte, decodeWord w = .command (.rxpush byte)) ∧
    (w &&& 0xFFFF0000#32 = 0x30000000#32 ↔ ∃ len, decodeWord w = .command (.rxpop len)) ∧
    (w &&& 0xFFFFFFFF#32 = 0x40000000#32 ↔ decodeWord w = .command .txrst) ∧
    (w &&& 0xFFFF0000#32 = 0x50000000#32 ↔ ∃ len, decodeWord w = .command (.txenq len)) ∧
    (w &&& 0xFFFFFFFF#32 = 0x60000000#32 ↔ decodeWord w = .command .txpump) ∧
    (w &&& 0xFFFFFFFF#32 = 0x70000000#32 ↔ decodeWord w = .command .txdone) ∧
    (w &&& 0xF0000000#32 = 0x80000000#32 ↔ ∃ pin baud, decodeWord w = .command (.chOpen pin baud))) ∧
  (∀ (p : Port) (w : Word) (i : Instr), decode p w = .command i ↔ decodeWord w = .command i ∧ p =
    match i with
    | .rxrst => .app
    | .rxpush _ => .rxirq
    | .rxpop _ => .app
    | .txrst => .app
    | .txenq _ => .app
    | .txpump => .app
    | .txdone => .dmairq
    | .chOpen _ _ => .app)

/-- 30_encoding.md R63, R65, and the field of R64: each operand is an unsigned slice of the word. -/
def Obligations.OperandsAreSlicesOfTheWord : Prop :=
  ∀ w : Word,
    (∀ byte, decodeWord w = .command (.rxpush byte) → byte = w.extractLsb' 0 8) ∧
    (∀ len, decodeWord w = .command (.rxpop len) → len = w.toNat % 65536) ∧
    (∀ len, decodeWord w = .command (.txenq len) → len = w.toNat % 65536) ∧
    (∀ pin baud, decodeWord w = .command (.chOpen pin baud) →
      pin = w.toNat / 16777216 % 16 ∧ baud = w.toNat % 16777216)

/-- 30_encoding.md R67: a word is refused exactly when (a) its opcode is unassigned, (b) a must-be-zero bit is 1,
or (c) its port does not accept the opcode; no status is returned and no valid word is refused. -/
def Obligations.InvalidWordsAndOnlyTheyAreRefused : Prop :=
  ∀ (s : State) (r : Request) (rest : List Input),
    takeFirst s.delivers s.inputs = some (.command r, rest) →
    ((∃ why, step s = .refused why) ↔
      (let op := r.word.toNat / 2 ^ 28
       (op = 0 ∨ 9 ≤ op) ∨
       ((op = 1 ∨ op = 4 ∨ op = 6 ∨ op = 7) ∧ r.word.toNat % 2 ^ 28 ≠ 0) ∨
       (op = 2 ∧ r.word.toNat % 2 ^ 28 / 2 ^ 8 ≠ 0) ∨
       ((op = 3 ∨ op = 5) ∧ r.word.toNat % 2 ^ 28 / 2 ^ 16 ≠ 0) ∨
       portAdmits r.port op = false))

/-- 95_test_vectors.md E1 to E24, some of the words: what each decodes to on its port. -/
def Obligations.SampleWordsDecode : Prop :=
  decode .app 0x10000000#32 = .command .rxrst ∧
  decode .rxirq 0x200000FF#32 = .command (.rxpush 0xFF#8) ∧
  decode .app 0x3000FFFF#32 = .command (.rxpop 65535) ∧
  decode .app 0x40000000#32 = .command .txrst ∧
  decode .app 0x50000061#32 = .command (.txenq 97) ∧
  decode .app 0x60000000#32 = .command .txpump ∧
  decode .dmairq 0x70000000#32 = .command .txdone ∧
  decode .app 0x8001C200#32 = .command (.chOpen 0 115200) ∧
  decode .app 0x00000000#32 = .invalid .unassignedOpcode ∧
  decode .rxirq 0x20000100#32 = .invalid .mustBeZero ∧
  decode .app 0x70000000#32 = .invalid .wrongPort

/-! ### The step -/

/-- 00_scope.md R10, 20_memory.md R47, R48: a delivered command that decodes is executed whole, with its payload
in APPIN and the inputs after it kept in order. (That the inputs are a list in the arbiter's order and that APPIN
stands in the state are the model's choices, assumptions 3 and 13.) -/
def Obligations.StepExecutesTheTakenCommand : Prop :=
  ∀ (s : State) (r : Request) (rest : List Input) (i : Instr),
    s.inputs = .command r :: rest → decode r.port r.word = .command i →
    (r.port = .rxirq → s.ch.rxIrqEn = true) →
    (r.port = .dmairq → s.dma.tcie = true ∧ s.dma.en = true) →
    step s = exec i { s with inputs := rest, appIn := r.appIn }

/-- 10_state.md R34 "the block executes nothing until a command arrives": with nothing to deliver, a step changes
nothing. (That the waiting is a step is the model's choice, assumption 9.) -/
def Obligations.NothingDeliverableChangesNothing : Prop :=
  ∀ s : State, (∀ x ∈ s.inputs, ∃ r, x = .command r ∧ r.port = .rxirq) → s.ch.rxIrqEn = false →
    step s = .next s

/-- 60_exceptions.md R145, 30_encoding.md R66: while `ch.rxIrqEn` is 0 the RXIRQ agent has no step, and the first
input of any other kind goes ahead of the bytes that wait (that they wait is the model's choice, assumption 7). -/
def Obligations.DisabledReceiveInterruptHasNoStep : Prop :=
  ∀ (s : State) (held : List Input) (x : Input) (rest : List Input),
    s.ch.rxIrqEn = false → s.inputs = held ++ x :: rest →
    (∀ y ∈ held, ∃ r, y = .command r ∧ r.port = .rxirq) →
    (∀ r, x = .command r → r.port ≠ .rxirq) →
    step s = step { s with inputs := x :: (held ++ rest) }

/-- 60_exceptions.md R146, 41_tx_queue.md R116: a completion event faults unless `dma.tcie` and `dma.en` are 1 and
the latest arm is unanswered, which between commands is exactly `tx.dmaState == Transmitting` (how the conditions
are split between the fetch and `TXDONE` is the model's, assumption 8). -/
def Obligations.CompletionIsAdmittedExactlyInTransmitting : Prop :=
  ∀ (s : State) (payload : List Byte) (rest : List Input),
    s.inputs = .command ⟨.dmairq, 0x70000000#32, payload⟩ :: rest →
    (s.dma.tcie = false ∨ s.dma.en = false ∨ s.tx.dmaState ≠ .transmitting →
      step s = .fault .spuriousCompletion) ∧
    (s.Inv → ((∃ t, step s = .next t) ↔ s.tx.dmaState = .transmitting))

/-! ### Reset and invariants -/

/-- 70_reset_and_hazards.md R165 with the `rst` column of 10_state.md R34: whatever the block was doing, every
piece of state takes its reset value, and neither interrupt port can present a command; a `TXDONE` that comes all the
same faults (60_exceptions.md R146). Nothing is said of the bytes of `tx.blk`. (That `rst` is an input taken by a
step between commands, and that the later inputs and the configuration are kept, are the model's choice,
assumption 4.) -/
def Obligations.HardResetGivesResetValues : Prop :=
  ∀ (s : State) (rest : List Input), s.inputs = .rst :: rest →
    ∃ t, step s = .next t ∧ t.cfg = s.cfg ∧ t.inputs = rest ∧
      (∀ a, t.rxRead a = 0#8) ∧ t.rx.head = 0 ∧ t.rx.tail = 0 ∧ t.rx.count = 0 ∧
      t.tx.used = List.replicate s.cfg.nb 0 ∧ t.tx.head = 0 ∧ t.tx.tail = 0 ∧ t.tx.count = 0 ∧
      t.tx.dmaState = .idle ∧ t.dma = ⟨false, false, 0, 0⟩ ∧ t.ch = ⟨false, false⟩ ∧ t.txTrace = [] ∧
      (∀ r : Request, r.port = .rxirq → t.delivers (.command r) = false) ∧
      (∀ (p : List Byte) (more : List Input),
        step { t with inputs := .command ⟨.dmairq, 0x70000000#32, p⟩ :: more } = .fault .spuriousCompletion)

/-- 10_state.md R18, R22, R23: the state after `rst` meets every invariant, in every configuration of
00_scope.md R7, and so does `State.reset`. (The configuration of `State.reset` is the model's choice,
assumption 1.) -/
def Obligations.ResetMeetsTheInvariants : Prop :=
  (∀ p : Params, p.wf →
    (State.ofRst p).Inv ∧ (State.ofRst p).writtenInv ∧ (State.ofRst p).inFlightInv ∧
      (State.ofRst p).rxFlowInv ∧ (State.ofRst p).txFlowInv) ∧
  State.reset.Inv

/-- 10_state.md R18, R19, R22, R23: every step keeps the invariant of the block: the registers in their ranges,
the head equations, the used sizes, the rest-state lemma, the memories in canonical form (the form is the model's,
assumption 6). -/
def Obligations.StepKeepsTheInvariant : Prop :=
  ∀ s t : State, s.Inv → step s = .next t → t.Inv

/-- 00_scope.md R6 "compile-time parameters, not runtime-configurable": no step changes the configuration (that the
state carries it is the model's choice, assumption 1). -/
def Obligations.StepKeepsTheConfiguration : Prop :=
  ∀ s t : State, step s = .next t → t.cfg = s.cfg

/-- 20_memory.md R43: no step from a state of the invariant forms an access outside a space, or a subtraction
below zero: it is not the fault `unformable`, by which the model marks one (the model's choice, assumption 11). -/
def Obligations.NoOutOfRangeAccessIsFormed : Prop :=
  ∀ s : State, s.Inv → step s ≠ .fault .unformable

/-- 00_scope.md R10, 60_exceptions.md R140, 70_reset_and_hazards.md R174, R177: with an environment that does its
part, every command completes, in every state of the invariant (that a `TXENQ` without its payload stops is the
model's choice, assumption 10). -/
def Obligations.DutifulEnvironmentNeverStopsTheBlock : Prop :=
  ∀ (i : Instr) (s : State), s.Inv → s.dutiful i = true → ∃ t, exec i s = .next t

/-! ### The RX ring -/

/-- 40_rx_ring.md R81: `RXRST`, whole. -/
def Obligations.RxrstClearsTheRing : Prop :=
  encode .rxrst = 0x10000000#32 ∧ decode .app 0x10000000#32 = .command .rxrst ∧
  ∀ s : State,
    ∃ t, exec .rxrst s = .next t ∧
      (∀ a, t.rxRead a = 0#8) ∧ t.rx.head = 0 ∧ t.rx.tail = 0 ∧ t.rx.count = 0 ∧
      t.rxEmpty = true ∧ (0 < s.cfg.rc → t.rxFull = false) ∧
      t = { s with rx := t.rx, events := s.events ++ [.returned ⟨.rxrst, .ok, [], []⟩] } ∧
      (∃ u, exec .rxrst t = .next u ∧ u.rx = t.rx)

/-- 40_rx_ring.md R83, R84: `RXPUSH`, whole: a full ring rejects the newest byte and changes nothing; otherwise
the byte goes to `rx.head` and to no other slot. -/
def Obligations.RxpushStoresOrOverflows : Prop :=
  ∀ byte : Byte,
    encode (.rxpush byte) = 0x20000000#32 ||| byte.setWidth 32 ∧
    decode .rxirq (0x20000000#32 ||| byte.setWidth 32) = .command (.rxpush byte) ∧
    ∀ s : State,
      (s.rx.count = s.cfg.rc →
        exec (.rxpush byte) s =
          .next { s with events := s.events ++ [.returned ⟨.rxpush byte, .overflow, [], []⟩] }) ∧
      (s.rx.count ≠ s.cfg.rc → s.rx.head < s.cfg.rc →
        ∃ t, exec (.rxpush byte) s = .next t ∧
          (∀ a, t.rxRead a = if a = s.rx.head then byte else s.rxRead a) ∧
          t.rx.head = (s.rx.head + 1) % s.cfg.rc ∧
          t.rx.tail = s.rx.tail ∧ t.rx.count = s.rx.count + 1 ∧
          t.rxEmpty = false ∧ (t.rxFull = true ↔ s.rx.count + 1 = s.cfg.rc) ∧
          t = { s with rx := t.rx, events := s.events ++ [.returned ⟨.rxpush byte, .ok, [], []⟩] })

/-- 40_rx_ring.md R86: `RXPOP`, whole: `Underflow` changes nothing; otherwise the `len` oldest bytes go to APPOUT
in order, and only the tail and the count change. -/
def Obligations.RxpopDeliversOrUnderflows : Prop :=
  ∀ len : Nat,
    (len ≤ 65535 → encode (.rxpop len) = 0x30000000#32 ||| BitVec.ofNat 32 len ∧
      decode .app (0x30000000#32 ||| BitVec.ofNat 32 len) = .command (.rxpop len)) ∧
    ∀ s : State,
      (s.rx.count < len →
        exec (.rxpop len) s =
          .next { s with events := s.events ++ [.returned ⟨.rxpop len, .underflow, [], []⟩] }) ∧
      (len ≤ s.rx.count → 1 ≤ s.cfg.rc →
        ∃ t out, exec (.rxpop len) s = .next t ∧
          out.length = len ∧ (∀ i < len, out[i]? = some (s.rxRead ((s.rx.tail + i) % s.cfg.rc))) ∧
          t.rx.mem = s.rx.mem ∧ t.rx.head = s.rx.head ∧
          t.rx.tail = (s.rx.tail + len) % s.cfg.rc ∧ t.rx.count + len = s.rx.count ∧
          (1 ≤ len → s.rx.count ≤ s.cfg.rc → t.rxFull = false) ∧
          (t.rxEmpty = true ↔ s.rx.count = len) ∧
          t = { s with rx := t.rx, events := s.events ++ [.returned ⟨.rxpop len, .ok, [], out⟩] })

/-- 40_rx_ring.md R87: the copy of a pop as the source's "one or two contiguous copies". -/
def Obligations.RxpopIsOneOrTwoContiguousCopies : Prop :=
  ∀ (len : Nat) (s : State), s.rxInv → len ≤ s.rx.count →
    ∃ t, exec (.rxpop len) s = .next t ∧
      t.events = s.events ++ [.returned ⟨.rxpop len, .ok, [],
        ((List.range (min len (s.cfg.rc - s.rx.tail))).map fun i => s.rxRead (s.rx.tail + i)) ++
        ((List.range (len - min len (s.cfg.rc - s.rx.tail))).map fun i => s.rxRead i)⟩]

/-- 40_rx_ring.md R88: the boundary lengths of `RXPOP`. -/
def Obligations.RxpopBoundaryLengths : Prop :=
  ∀ s : State, s.rxInv →
    exec (.rxpop 0) s = .next { s with events := s.events ++ [.returned ⟨.rxpop 0, .ok, [], []⟩] } ∧
    (∀ len, s.cfg.rc < len →
      exec (.rxpop len) s =
        .next { s with events := s.events ++ [.returned ⟨.rxpop len, .underflow, [], []⟩] }) ∧
    (s.rx.count = s.cfg.rc →
      ∃ t, exec (.rxpop s.cfg.rc) s = .next t ∧ t.rx.count = 0 ∧ t.rx.tail = t.rx.head ∧
        t.events = s.events ++ [.returned ⟨.rxpop s.cfg.rc, .ok, [], s.rxWindow⟩])

/-- 40_rx_ring.md R89: from an empty ring, pushes that fit, then a pop of the same length, return the bytes in
the order pushed and leave the ring empty. -/
def Obligations.PopReturnsTheBytesInTheOrderPushed : Prop :=
  ∀ (s : State) (bytes : List Byte), s.rxInv → s.rx.count = 0 → bytes.length ≤ s.cfg.rc →
    ∃ t, execAll (bytes.map Instr.rxpush ++ [.rxpop bytes.length]) s = .next t ∧ t.rx.count = 0 ∧
      t.events = s.events ++ (bytes.map fun b => Event.returned ⟨.rxpush b, .ok, [], []⟩) ++
        [.returned ⟨.rxpop bytes.length, .ok, [], bytes⟩]

/-- 10_state.md R18, R19, 40_rx_ring.md R81, R83, R84, R86, R89, R90, 42_channel.md R126: the ring is a bounded
FIFO of bytes; its valid window is the abstract queue that pushes append to and pops take from, and no other
command but a reset changes it. -/
def Obligations.RingIsABoundedFifo : Prop :=
  ∀ (i : Instr) (s t : State), s.rxInv → exec i s = .next t →
    match i with
    | .rxpush byte => t.rxWindow = if s.rxWindow.length < s.cfg.rc then s.rxWindow ++ [byte] else s.rxWindow
    | .rxpop len =>
      if len ≤ s.rxWindow.length then
        t.rxWindow = s.rxWindow.drop len ∧
          t.events = s.events ++ [.returned ⟨.rxpop len, .ok, [], s.rxWindow.take len⟩]
      else t.rxWindow = s.rxWindow
    | .rxrst => t.rxWindow = []
    | .chOpen pin _ => t.rxWindow = if s.cfg.pins.getLsbD pin then [] else s.rxWindow
    | .txrst => t.rxWindow = s.rxWindow
    | .txenq _ => t.rxWindow = s.rxWindow
    | .txpump => t.rxWindow = s.rxWindow
    | .txdone => t.rxWindow = s.rxWindow

/-- 60_exceptions.md R148 with 40_rx_ring.md R83, R86: a push and a pop on a full ring: "a push into a full ring
fails before the pop and succeeds after it", and the two orders differ by exactly that byte. -/
def Obligations.OrderDecidesThePushOnAFullRing : Prop :=
  ∀ (byte : Byte) (len : Nat) (s : State), s.rxInv → s.rx.count = s.cfg.rc → 1 ≤ len → len ≤ s.rx.count →
    ∃ t u, execAll [.rxpush byte, .rxpop len] s = .next t ∧ execAll [.rxpop len, .rxpush byte] s = .next u ∧
      t.events = s.events ++ [.returned ⟨.rxpush byte, .overflow, [], []⟩,
        .returned ⟨.rxpop len, .ok, [], s.rxWindow.take len⟩] ∧
      u.events = s.events ++ [.returned ⟨.rxpop len, .ok, [], s.rxWindow.take len⟩,
        .returned ⟨.rxpush byte, .ok, [], []⟩] ∧
      t.rxWindow = s.rxWindow.drop len ∧ u.rxWindow = s.rxWindow.drop len ++ [byte]

/-- 20_memory.md R49, 40_rx_ring.md R89: every step keeps "the bytes of the accepted pushes are the bytes of the
successful pops, then the bytes still in the ring", counted since the last reset of the ring. -/
def Obligations.StepKeepsTheReceiveOrder : Prop :=
  ∀ s t : State, s.Inv → s.rxFlowInv → step s = .next t → t.rxFlowInv

/-- 40_rx_ring.md R80: an RX command writes only the ring, reads only the ring, and commutes with every TX
command. -/
def Obligations.RxCommandsTouchOnlyTheRing : Prop :=
  ∀ i : Instr, i.isRx = true →
    (∀ s t : State, exec i s = .next t →
      ∃ r, t = { s with rx := t.rx, events := s.events ++ [.returned r] }) ∧
    (∀ s s' t : State, s'.cfg = s.cfg → s'.rx = s.rx → exec i s = .next t →
      ∃ r, t.events = s.events ++ [.returned r] ∧
        exec i s' = .next { s' with rx := t.rx, events := s'.events ++ [.returned r] }) ∧
    (∀ (j : Instr) (s t u : State), j.isTx = true → exec i s = .next t → exec j t = .next u →
      ∃ t' u', exec j s = .next t' ∧ exec i t' = .next u' ∧ u.sameBlock u' ∧ u'.txTrace = u.txTrace)

/-- 10_state.md R17, R18, R22: the cursors alone do not tell full from empty: head equals tail exactly when the
count is 0 or the capacity, in both engines. -/
def Obligations.EqualCursorsMeanFullOrEmpty : Prop :=
  ∀ s : State,
    (s.rxInv → (s.rx.head = s.rx.tail ↔ s.rxEmpty = true ∨ s.rxFull = true)) ∧
    (s.txInv → (s.tx.head = s.tx.tail ↔ s.txEmpty = true ∨ s.txFull = true))

/-! ### The TX queue -/

/-- 41_tx_queue.md R95: a TX command writes only the queue, the DMA registers and the trace, and reads neither the
ring nor the channel. -/
def Obligations.TxCommandsTouchOnlyTheQueue : Prop :=
  ∀ i : Instr, i.isTx = true →
    (∀ s t : State, exec i s = .next t →
      t = { s with tx := t.tx, dma := t.dma, events := t.events }) ∧
    (∀ (s t : State) (rx : RxRing) (ch : Channel), exec i s = .next t →
      exec i { s with rx := rx, ch := ch } = .next { t with rx := rx, ch := ch })

/-- 41_tx_queue.md R96: `TXRST`, whole: in particular `tx.blk`, `dma.tcie`, `dma.blk` and `dma.len` are kept. -/
def Obligations.TxrstClearsTheQueue : Prop :=
  encode .txrst = 0x40000000#32 ∧ decode .app 0x40000000#32 = .command .txrst ∧
  ∀ s : State,
    ∃ t, exec .txrst s = .next t ∧
      t = { s with
        tx := ⟨s.tx.blk, List.replicate s.cfg.nb 0, 0, 0, 0, .idle⟩
        dma := ⟨false, s.dma.tcie, s.dma.blk, s.dma.len⟩
        events := s.events ++ [.returned ⟨.txrst, .ok, [], []⟩] } ∧
      t.txEmpty = true ∧ (0 < s.cfg.nb → t.txFull = false) ∧ t.txTrace = s.txTrace

/-- 41_tx_queue.md R103: `TXENQ 0` returns `InvalidArgument` and changes nothing; the capacity test would not
fail. -/
def Obligations.ZeroLengthSendIsRejected : Prop :=
  ∀ s : State,
    exec (.txenq 0) s =
      .next { s with events := s.events ++ [.returned ⟨.txenq 0, .invalidArgument, [], []⟩] } ∧
    (s.txInv → ¬ s.tx.count + 0 > s.cfg.nb)

/-- 41_tx_queue.md R104: the capacity test, whole: refused exactly when the blocks needed exceed the free slots,
nothing partially queued; a request over NB*BS bytes is refused in every state; and the source's literal. -/
def Obligations.QueueFullExactlyWhenSlotsLack : Prop :=
  (∀ (len : Nat) (s : State), 1 ≤ len → 1 ≤ s.cfg.bs →
    ((∃ t, exec (.txenq len) s = .next t ∧
        t.events = s.events ++ [.returned ⟨.txenq len, .queueFull, [], []⟩]) ↔
      s.tx.count + (len + s.cfg.bs - 1) / s.cfg.bs > s.cfg.nb) ∧
    (s.tx.count + (len + s.cfg.bs - 1) / s.cfg.bs > s.cfg.nb →
      exec (.txenq len) s =
        .next { s with events := s.events ++ [.returned ⟨.txenq len, .queueFull, [], []⟩] }) ∧
    (len > s.cfg.nb * s.cfg.bs →
      s.tx.count + (len + s.cfg.bs - 1) / s.cfg.bs > s.cfg.nb) ∧
    (s.tx.count = s.cfg.nb → s.tx.count + (len + s.cfg.bs - 1) / s.cfg.bs > s.cfg.nb)) ∧
  (97 + 32 - 1) / 32 = 4

/-- 41_tx_queue.md R101, R102, R111, R113: an accepted `TXENQ` fills `k = ceil(len / BS)` slots from `tx.head` on
with full blocks and one last block of `len - (k-1)*BS` bytes, each byte where R102 puts it, then pumps: from `Idle` the
oldest block is armed, in `Transmitting` the engine is left alone. (That the arm stands before the answer in `events`
is the model's order inside a command, assumption 12; the spec makes none observable.) -/
def Obligations.TxenqFillsSlotsAndPumps : Prop :=
  ∀ (len : Nat) (s : State), s.Inv → 1 ≤ len → s.tx.count + (len + s.cfg.bs - 1) / s.cfg.bs ≤ s.cfg.nb →
    len ≤ s.appIn.length →
    ∃ t k, k = (len + s.cfg.bs - 1) / s.cfg.bs ∧ exec (.txenq len) s = .next t ∧
      t.tx.head = (s.tx.head + k) % s.cfg.nb ∧ t.tx.tail = s.tx.tail ∧ t.tx.count = s.tx.count + k ∧
      (∀ j, j + 1 < k → t.usedAt ((s.tx.head + j) % s.cfg.nb) = s.cfg.bs) ∧
      t.usedAt ((s.tx.head + (k - 1)) % s.cfg.nb) = len - (k - 1) * s.cfg.bs ∧
      1 ≤ len - (k - 1) * s.cfg.bs ∧ len - (k - 1) * s.cfg.bs ≤ s.cfg.bs ∧
      (∀ p < len, some (t.txRead ((s.tx.head + p / s.cfg.bs) % s.cfg.nb * s.cfg.bs + p % s.cfg.bs)) =
        s.appIn[p]?) ∧
      t.txEmpty = false ∧ (t.txFull = true ↔ s.tx.count + k = s.cfg.nb) ∧
      t.tx.dmaState = .transmitting ∧
      (s.tx.dmaState = .transmitting → t.dma = s.dma ∧
        t.events = s.events ++ [.returned ⟨.txenq len, .ok, s.appIn.take len, []⟩]) ∧
      (s.tx.dmaState = .idle → t.dma = ⟨true, true, s.tx.tail, min s.cfg.bs len⟩ ∧
        t.events = s.events ++
          [.armed ⟨s.tx.tail, min s.cfg.bs len, (s.appIn.take len).take s.cfg.bs⟩,
           .returned ⟨.txenq len, .ok, s.appIn.take len, []⟩]) ∧
      t = { s with tx := t.tx, dma := t.dma, events := t.events }

/-- 41_tx_queue.md R105: `TXENQ` writes no byte but the ones of its request, in the slots `(tx.head + j) mod NB`,
and those are free slots: no byte and no used size of a queued slot changes, in particular of the slot in
flight. -/
def Obligations.TxenqWritesOnlyFreeSlots : Prop :=
  ∀ (len : Nat) (s t : State), s.Inv → exec (.txenq len) s = .next t →
    (∀ a, (∀ p < len, a ≠ (s.tx.head + p / s.cfg.bs) % s.cfg.nb * s.cfg.bs + p % s.cfg.bs) →
      t.txRead a = s.txRead a) ∧
    (∀ b < s.cfg.nb, (∀ j < (len + s.cfg.bs - 1) / s.cfg.bs, b ≠ (s.tx.head + j) % s.cfg.nb) →
      t.usedAt b = s.usedAt b) ∧
    (∀ j < s.tx.count, t.usedAt ((s.tx.tail + j) % s.cfg.nb) = s.usedAt ((s.tx.tail + j) % s.cfg.nb) ∧
      ∀ i < s.cfg.bs, t.txRead ((s.tx.tail + j) % s.cfg.nb * s.cfg.bs + i) =
        s.txRead ((s.tx.tail + j) % s.cfg.nb * s.cfg.bs + i))

/-- 41_tx_queue.md R113: the pump step takes no action while a transfer is outstanding. -/
def Obligations.PumpDoesNothingWhileTransmitting : Prop :=
  ∀ s : State, s.tx.dmaState = .transmitting →
    s.pump = some s ∧
    exec .txpump s = .next { s with events := s.events ++ [.returned ⟨.txpump, .ok, [], []⟩] }

/-- 41_tx_queue.md R114: between commands `TXPUMP` never changes the state, and every arm is caused by a `TXENQ`
or a `TXDONE`. -/
def Obligations.TxpumpIsInertBetweenCommands : Prop :=
  (∀ s : State, s.restInv →
    exec .txpump s = .next { s with events := s.events ++ [.returned ⟨.txpump, .ok, [], []⟩] }) ∧
  (∀ (i : Instr) (s t : State), s.restInv → exec i s = .next t → t.txTrace ≠ s.txTrace →
    (∃ len, i = .txenq len) ∨ i = .txdone)

/-- 41_tx_queue.md R108 to R113: the pump step's five rows as the command `TXPUMP`, in every state whose
tail slot exists and whose used sizes are at most BS, the states no run reaches included. (The order of `dma_clr`,
arm and answer in `events` is the model's order inside a command, assumption 12; the spec makes none observable.) -/
def Obligations.PumpFollowsTheStateMachine : Prop :=
  encode .txpump = 0x60000000#32 ∧ decode .app 0x60000000#32 = .command .txpump ∧
  ∀ s : State, s.tx.tail < s.cfg.nb → s.tx.used.length = s.cfg.nb → (∀ b, s.usedAt b ≤ s.cfg.bs) →
    (s.tx.dmaState = .idle → s.tx.count > 0 →
      exec .txpump s = .next { s with
        tx := ⟨s.tx.blk, s.tx.used, s.tx.head, s.tx.tail, s.tx.count, .transmitting⟩
        dma := ⟨true, true, s.tx.tail, s.usedAt s.tx.tail⟩
        events := s.events ++
          [.armed ⟨s.tx.tail, s.usedAt s.tx.tail, s.slotBytes s.tx.tail (s.usedAt s.tx.tail)⟩,
           .returned ⟨.txpump, .ok, [], []⟩] }) ∧
    (s.tx.dmaState = .idle → s.tx.count = 0 →
      exec .txpump s = .next { s with
        dma := ⟨false, s.dma.tcie, s.dma.blk, s.dma.len⟩
        events := s.events ++ [.returned ⟨.txpump, .ok, [], []⟩] }) ∧
    (s.tx.dmaState = .transmitting →
      exec .txpump s = .next { s with events := s.events ++ [.returned ⟨.txpump, .ok, [], []⟩] }) ∧
    (s.tx.dmaState = .transferDone → s.tx.count > 1 →
      ∃ t b, b = (s.tx.tail + 1) % s.cfg.nb ∧ exec .txpump s = .next t ∧
        t.usedAt s.tx.tail = 0 ∧ (∀ c, c ≠ s.tx.tail → t.usedAt c = s.usedAt c) ∧
        t.tx.blk = s.tx.blk ∧ t.tx.head = s.tx.head ∧ t.tx.tail = b ∧ t.tx.count + 1 = s.tx.count ∧
        t.tx.dmaState = .transmitting ∧ t.dma = ⟨true, true, b, t.usedAt b⟩ ∧
        t.events = s.events ++
          [.dmaClr, .armed ⟨b, t.usedAt b, s.slotBytes b (t.usedAt b)⟩, .returned ⟨.txpump, .ok, [], []⟩] ∧
        t = { s with tx := t.tx, dma := t.dma, events := t.events }) ∧
    (s.tx.dmaState = .transferDone → s.tx.count = 1 →
      ∃ t, exec .txpump s = .next t ∧
        t.usedAt s.tx.tail = 0 ∧ (∀ c, c ≠ s.tx.tail → t.usedAt c = s.usedAt c) ∧
        t.tx.blk = s.tx.blk ∧ t.tx.head = s.tx.head ∧ t.tx.tail = (s.tx.tail + 1) % s.cfg.nb ∧
        t.tx.count = 0 ∧ t.tx.dmaState = .idle ∧ t.dma = ⟨false, s.dma.tcie, s.dma.blk, s.dma.len⟩ ∧
        t.events = s.events ++ [.dmaClr, .returned ⟨.txpump, .ok, [], []⟩] ∧
        t = { s with tx := t.tx, dma := t.dma, events := t.events })

/-- 41_tx_queue.md R115 with R110 to R112: `TXDONE`, whole: outside `Transmitting` it faults; in it, it retires
exactly the oldest block, then arms the next one or goes idle. (The order of `dma_clr`, arm and answer in `events` is
the model's order inside a command, assumption 12; the spec makes none observable.) -/
def Obligations.TxdoneRetiresThenArmsOrIdles : Prop :=
  encode .txdone = 0x70000000#32 ∧ decode .dmairq 0x70000000#32 = .command .txdone ∧
  (∀ s : State, s.tx.dmaState ≠ .transmitting → exec .txdone s = .fault .spuriousCompletion) ∧
  ∀ s : State, s.Inv → s.tx.dmaState = .transmitting →
    ∃ t b, b = (s.tx.tail + 1) % s.cfg.nb ∧ exec .txdone s = .next t ∧
      t.usedAt s.tx.tail = 0 ∧ (∀ c, c ≠ s.tx.tail → t.usedAt c = s.usedAt c) ∧
      t.tx.blk = s.tx.blk ∧ t.tx.head = s.tx.head ∧ t.tx.tail = b ∧ t.tx.count + 1 = s.tx.count ∧
      t.txFull = false ∧ (t.txEmpty = true ↔ s.tx.count = 1) ∧
      (s.tx.count > 1 →
        t.tx.dmaState = .transmitting ∧ t.dma = ⟨true, true, b, s.usedAt b⟩ ∧
        t.events = s.events ++
          [.dmaClr, .armed ⟨b, s.usedAt b, s.slotBytes b (s.usedAt b)⟩, .returned ⟨.txdone, .ok, [], []⟩]) ∧
      (s.tx.count = 1 →
        t.tx.dmaState = .idle ∧ t.dma = ⟨false, s.dma.tcie, s.dma.blk, s.dma.len⟩ ∧
        t.events = s.events ++ [.dmaClr, .returned ⟨.txdone, .ok, [], []⟩]) ∧
      t = { s with tx := t.tx, dma := t.dma, events := t.events }

/-- 41_tx_queue.md R116: `TXDONE` is defined only in `Transmitting`; anywhere else it faults. -/
def Obligations.TxdoneOutsideTransmittingFaults : Prop :=
  ∀ s : State, exec .txdone s = .fault .spuriousCompletion ↔ s.tx.dmaState ≠ .transmitting

/-- 20_memory.md R49, 41_tx_queue.md R117: every step keeps "the bytes of the accepted send requests are the bytes
armed, then the bytes waiting", counted since the last reset of the queue; so once the queue has drained, the arm
trace reconstructs the input. -/
def Obligations.StepKeepsTheTransmitOrder : Prop :=
  ∀ s t : State, s.Inv → s.txFlowInv → step s = .next t →
    t.txFlowInv ∧ (t.tx.count = 0 → t.txFlow.delivered = t.txFlow.accepted)

/-- 41_tx_queue.md R117, R118: a request that fits an idle queue is queued as `k` blocks, and `k` completions drain
it: the `k` blocks armed carry exactly its bytes in order, and the queue ends empty, idle, with the engine
disabled. -/
def Obligations.DrainingDeliversTheRequestAndStops : Prop :=
  ∀ (len : Nat) (s : State), s.Inv → s.tx.dmaState = .idle → 1 ≤ len →
    (len + s.cfg.bs - 1) / s.cfg.bs ≤ s.cfg.nb → len ≤ s.appIn.length →
    ∃ t u k, k = (len + s.cfg.bs - 1) / s.cfg.bs ∧
      exec (.txenq len) s = .next t ∧ t.tx.count = k ∧ t.tx.dmaState = .transmitting ∧
      execAll (List.replicate k .txdone) t = .next u ∧
      u.tx.count = 0 ∧ u.tx.dmaState = .idle ∧ u.dma.en = false ∧ u.tx.tail = (s.tx.tail + k) % s.cfg.nb ∧
      (u.txTrace.drop s.txTrace.length).length = k ∧
      (u.txTrace.drop s.txTrace.length).flatMap ArmEntry.bytes = s.appIn.take len

/-- 41_tx_queue.md R105, 10_state.md R30, R34: the free bytes of `tx.blk` are "never read before written": a command
behaves the same whatever they are (`resets` selects them, assumption 5). -/
def Obligations.FreeBytesAreNeverSent : Prop :=
  ∀ (i : Instr) (s t : State) (n : Nat), s.Inv → s.writtenInv → exec i s = .next t →
    exec i { s with resets := n } = .next { t with resets := n }

/-- 20_memory.md R53: from an arm to the retire that follows it the engine's bytes stay the bytes of the arm:
every step keeps that the latest trace entry names the block in flight and holds its present bytes. -/
def Obligations.StepKeepsTheBytesInFlight : Prop :=
  ∀ s t : State, s.Inv → s.inFlightInv → step s = .next t → t.inFlightInv

/-- 10_state.md R30, R34: every step keeps that each byte of a queued block has been written since the last `rst`,
so no free byte of `tx.blk` is ever sent. -/
def Obligations.StepKeepsQueuedBytesWritten : Prop :=
  ∀ s t : State, s.Inv → s.writtenInv → step s = .next t → t.writtenInv

/-- 60_exceptions.md R148: `TXENQ` and `TXDONE` when both succeed: "the two orders end in the same state". -/
def Obligations.EnqueueAndCompletionCommute : Prop :=
  ∀ (len : Nat) (s : State), s.Inv → s.tx.dmaState = .transmitting → 1 ≤ len → len ≤ s.appIn.length →
    s.tx.count + (len + s.cfg.bs - 1) / s.cfg.bs ≤ s.cfg.nb →
    ∃ t u t' u', exec (.txenq len) s = .next t ∧ exec .txdone t = .next u ∧
      exec .txdone s = .next t' ∧ exec (.txenq len) t' = .next u' ∧
      u.sameBlock u' ∧ u'.txTrace = u.txTrace

/-- 70_reset_and_hazards.md R175, 60_exceptions.md R148: after a `TXRST` or a successful `OPEN`, whatever was in
flight, a completion faults, and nothing has been armed. -/
def Obligations.CompletionAfterAResetFaults : Prop :=
  ∀ (i : Instr) (s t : State), (i = .txrst ∨ ∃ pin baud, i = .chOpen pin baud ∧ s.cfg.pins.getLsbD pin = true) →
    exec i s = .next t → exec .txdone t = .fault .spuriousCompletion ∧ t.txTrace = s.txTrace

/-! ### The channel -/

/-- 42_channel.md R126, R128: `OPEN`, whole: an unsupported pin writes nothing and emits no `cfg_req`; a supported
one sets the clocks, pulses `cfg_req`, resets both engines and enables the receive interrupt. (That the pulse stands
before the answer in `events` is the model's order inside a command, assumption 12; the spec makes none
observable.) -/
def Obligations.OpenResetsBothEnginesOrFails : Prop :=
  ∀ pin baud : Nat,
    (pin ≤ 15 → baud ≤ 16777215 →
      encode (.chOpen pin baud) = 0x80000000#32 ||| (BitVec.ofNat 32 pin <<< 24) ||| BitVec.ofNat 32 baud ∧
      decode .app (0x80000000#32 ||| (BitVec.ofNat 32 pin <<< 24) ||| BitVec.ofNat 32 baud) =
        .command (.chOpen pin baud)) ∧
    ∀ s : State,
      (s.cfg.pins.getLsbD pin = false →
        exec (.chOpen pin baud) s =
          .next { s with events := s.events ++ [.returned ⟨.chOpen pin baud, .openFailed, [], []⟩] }) ∧
      (s.cfg.pins.getLsbD pin = true →
        ∃ t, exec (.chOpen pin baud) s = .next t ∧
          (∀ a, t.rxRead a = 0#8) ∧ t.rx.head = 0 ∧ t.rx.tail = 0 ∧ t.rx.count = 0 ∧
          t = { s with
            rx := t.rx
            tx := ⟨s.tx.blk, List.replicate s.cfg.nb 0, 0, 0, 0, .idle⟩
            dma := ⟨false, s.dma.tcie, s.dma.blk, s.dma.len⟩
            ch := ⟨true, true⟩
            events := s.events ++ [.cfgReq baud pin, .returned ⟨.chOpen pin baud, .ok, [], []⟩] } ∧
          t.rxEmpty = true ∧ t.txEmpty = true ∧
          (0 < s.cfg.rc → t.rxFull = false) ∧ (0 < s.cfg.nb → t.txFull = false))

/-- 42_channel.md R129: `baud` has no effect on any state of the block, every value is accepted, and it is passed on
in `cfg_req`. -/
def Obligations.BaudHasNoEffect : Prop :=
  ∀ (pin baud baud' : Nat) (s t : State), exec (.chOpen pin baud) s = .next t →
    ∃ t', exec (.chOpen pin baud') s = .next t' ∧ t.sameBlock t' ∧ t'.txTrace = t.txTrace ∧
      ((∃ r, t.events.getLast? = some (.returned r) ∧ r.status = .ok) ↔
        (∃ r, t'.events.getLast? = some (.returned r) ∧ r.status = .ok)) ∧
      (s.cfg.pins.getLsbD pin = true →
        .cfgReq baud pin ∈ t.events.drop s.events.length ∧ .cfgReq baud' pin ∈ t'.events.drop s.events.length)

/-! ### Statuses and whole-machine rules -/

/-- 60_exceptions.md R139: a command that ends with an error status has written no register and no memory, read no
payload and emitted no output. -/
def Obligations.FailedCommandsWriteNothing : Prop :=
  ∀ (i : Instr) (s t : State) (r : Response), exec i s = .next t →
    t.events.getLast? = some (.returned r) → r.status ≠ .ok →
    t = { s with events := s.events ++ [.returned ⟨i, r.status, [], []⟩] }

/-- 60_exceptions.md R135, 30_encoding.md R69: every command that completes returns exactly one status, and one of
those it can return; the statuses' codes are 0 to 5. (That the answer stands in `events` after the command's other
outputs is the model's order inside a command, assumption 12; 00_scope.md R12 makes `return` end a command and the
spec makes no order inside one observable.) -/
def Obligations.EveryCommandReturnsOneOfItsStatuses : Prop :=
  [Status.ok, .overflow, .underflow, .queueFull, .invalidArgument, .openFailed].map Status.code =
    [0#4, 1#4, 2#4, 3#4, 4#4, 5#4] ∧
  ∀ (i : Instr) (s t : State), exec i s = .next t →
    ∃ pre st inp out, t.events = s.events ++ pre ++ [.returned ⟨i, st, inp, out⟩] ∧
      (∀ r, .returned r ∉ pre) ∧
      st ∈ (match i with
        | .rxrst => [Status.ok]
        | .rxpush _ => [.ok, .overflow]
        | .rxpop _ => [.ok, .underflow]
        | .txrst => [.ok]
        | .txenq _ => [.ok, .queueFull, .invalidArgument]
        | .txpump => [.ok]
        | .txdone => [.ok]
        | .chOpen _ _ => [.ok, .openFailed])

/-- 60_exceptions.md R140, 00_scope.md R11: what was returned and emitted before has no influence on a command:
"the next command behaves as if the failed one had never been issued". (That the outputs stand in the list `events`
is the model's choice, assumption 12.) -/
def Obligations.PastOutputsHaveNoInfluence : Prop :=
  ∀ (i : Instr) (s t : State) (past : List Event), exec i s = .next t →
    ∃ new, t.events = s.events ++ new ∧
      exec i { s with events := past } = .next { t with events := past ++ new }

/-- 10_state.md R14, R15, R20: which commands write the cursor and count registers and `tx.dmaState`; `OPEN`
performs both resets. -/
def Obligations.CursorsHaveTheirOwnWriters : Prop :=
  ∀ (i : Instr) (s t : State), exec i s = .next t →
    (t.rx.head ≠ s.rx.head → (∃ b, i = .rxpush b) ∨ i = .rxrst ∨ ∃ p b, i = .chOpen p b) ∧
    (t.rx.tail ≠ s.rx.tail → (∃ n, i = .rxpop n) ∨ i = .rxrst ∨ ∃ p b, i = .chOpen p b) ∧
    (t.rx.count ≠ s.rx.count → i.isRx = true ∨ ∃ p b, i = .chOpen p b) ∧
    (t.tx.head ≠ s.tx.head → (∃ n, i = .txenq n) ∨ i = .txrst ∨ ∃ p b, i = .chOpen p b) ∧
    (t.tx.tail ≠ s.tx.tail → s.restInv → i = .txdone ∨ i = .txrst ∨ ∃ p b, i = .chOpen p b) ∧
    (t.tx.count ≠ s.tx.count → s.restInv →
      (∃ n, i = .txenq n) ∨ i = .txdone ∨ i = .txrst ∨ ∃ p b, i = .chOpen p b) ∧
    (t.tx.dmaState ≠ s.tx.dmaState → i.isTx = true ∨ ∃ p b, i = .chOpen p b)

/-- 10_state.md R25, R28: no command clears `ch.rxIrqEn`, `ch.clkEn` or `dma.tcie`; only a successful `OPEN` sets
the first two, and only an arm sets the third. -/
def Obligations.EnableBitsAreOnlySet : Prop :=
  ∀ (i : Instr) (s t : State), exec i s = .next t →
    (s.ch.rxIrqEn = true → t.ch.rxIrqEn = true) ∧ (s.ch.clkEn = true → t.ch.clkEn = true) ∧
    (s.dma.tcie = true → t.dma.tcie = true) ∧
    (t.ch ≠ s.ch → ∃ p b, i = .chOpen p b ∧ s.cfg.pins.getLsbD p = true) ∧
    (t.dma.tcie ≠ s.dma.tcie → t.txTrace.length = s.txTrace.length + 1)

/-- 41_tx_queue.md R113, 70_reset_and_hazards.md R179, 10_state.md R22: "at most one block is ever 'in flight'": a
command arms at most one block, and while one is in flight only the `TXDONE` that retires it arms another. -/
def Obligations.AtMostOneBlockIsInFlight : Prop :=
  ∀ (i : Instr) (s t : State), exec i s = .next t →
    t.txTrace.length ≤ s.txTrace.length + 1 ∧
    (s.tx.dmaState = .transmitting → t.txTrace ≠ s.txTrace → i = .txdone ∧ Event.dmaClr ∈ t.events.drop s.events.length)

/-- The model's memories: two memories in canonical form that read the same everywhere are the same data
(20_memory.md R40; the form is the model's, assumption 6). -/
def Obligations.CanonicalMemoriesAreEqualWhenReadsAgree : Prop :=
  ∀ (u : Option Byte) (n : Nat) (m m' : Mem), Mem.wf u n m → Mem.wf u n m' →
    (∀ a, (Mem.find m a).or u = (Mem.find m' a).or u) → m = m'
end

