-- ==== Sys2Proof/Laws/Decode.lean ====
section
/-! SUPPORT. The fields of a command word as arithmetic on its number, and what the decoder and the encoder do in
those terms. -/

namespace Sys2Proof

/-! ### Fields as numbers -/

theorem opField_toNat (w : Word) : (opField w).toNat = w.toNat / 2 ^ 28 := by
  have := w.isLt
  simp only [opField, BitVec.extractLsb'_toNat, Nat.shiftRight_eq_div_pow]
  omega

theorem byteField_toNat (w : Word) : (byteField w).toNat = w.toNat % 2 ^ 8 := by
  simp [byteField, BitVec.extractLsb'_toNat]

theorem lenField_eq (w : Word) : lenField w = w.toNat % 2 ^ 16 := by
  simp [lenField, BitVec.extractLsb'_toNat]

theorem pinField_eq (w : Word) : pinField w = w.toNat / 2 ^ 24 % 16 := by
  simp [pinField, BitVec.extractLsb'_toNat, Nat.shiftRight_eq_div_pow]

theorem baudField_eq (w : Word) : baudField w = w.toNat % 2 ^ 24 := by
  simp [baudField, BitVec.extractLsb'_toNat]

theorem zeroN_iff (w : Word) : zeroN w = true ↔ w.toNat % 2 ^ 28 = 0 := by
  simp [zeroN, ← BitVec.toNat_inj, BitVec.extractLsb'_toNat]

theorem zeroB_iff (w : Word) : zeroB w = true ↔ w.toNat % 2 ^ 28 / 2 ^ 8 = 0 := by
  simp only [zeroB, beq_iff_eq, ← BitVec.toNat_inj, BitVec.extractLsb'_toNat, Nat.shiftRight_eq_div_pow,
    BitVec.toNat_ofNat]
  omega

theorem zeroL_iff (w : Word) : zeroL w = true ↔ w.toNat % 2 ^ 28 / 2 ^ 16 = 0 := by
  simp only [zeroL, beq_iff_eq, ← BitVec.toNat_inj, BitVec.extractLsb'_toNat, Nat.shiftRight_eq_div_pow,
    BitVec.toNat_ofNat]
  omega

/-! ### The decoder -/

theorem ifZero_eq_command {z : Bool} {i j : Instr} : ifZero z i = .command j ↔ z = true ∧ i = j := by
  cases z <;> simp [ifZero]

/-- The word's number lies where its opcode, its must-be-zero bits and its operands put it
(30_encoding.md R61 to R65). -/
def wordShape (n : Nat) : Instr → Prop
  | .rxrst => n = 1 * 2 ^ 28
  | .rxpush b => n = 2 * 2 ^ 28 + b.toNat
  | .rxpop len => n = 3 * 2 ^ 28 + len ∧ len < 2 ^ 16
  | .txrst => n = 4 * 2 ^ 28
  | .txenq len => n = 5 * 2 ^ 28 + len ∧ len < 2 ^ 16
  | .txpump => n = 6 * 2 ^ 28
  | .txdone => n = 7 * 2 ^ 28
  | .chOpen pin baud => n = 8 * 2 ^ 28 + pin * 2 ^ 24 + baud ∧ pin < 16 ∧ baud < 2 ^ 24

/-- The decoder answers a command exactly for the words of its shape. -/
theorem decodeWord_eq_command {w : Word} {i : Instr} : decodeWord w = .command i ↔ wordShape w.toNat i := by
  have hw := w.isLt
  have hb := byteField_toNat w
  unfold decodeWord
  rw [opField_toNat]
  generalize ho : w.toNat / 2 ^ 28 = op
  have hop : op < 16 := by omega
  split
  all_goals try simp only [ifZero_eq_command, zeroN_iff, zeroB_iff, zeroL_iff, lenField_eq, Decoded.command.injEq,
    pinField_eq, baudField_eq, reduceCtorEq, false_iff]
  all_goals try
    (cases i <;> simp only [wordShape, reduceCtorEq, and_false, false_iff, and_true, Instr.rxpush.injEq,
      Instr.rxpop.injEq, Instr.txenq.injEq, Instr.chOpen.injEq, ← BitVec.toNat_inj, hb] <;> omega)
  · rename_i h1 h2 h3 h4 h5 h6 h7 h8
    have hne : op ≠ 1 ∧ op ≠ 2 ∧ op ≠ 3 ∧ op ≠ 4 ∧ op ≠ 5 ∧ op ≠ 6 ∧ op ≠ 7 ∧ op ≠ 8 :=
      ⟨h1, h2, h3, h4, h5, h6, h7, h8⟩
    clear h1 h2 h3 h4 h5 h6 h7 h8
    cases i <;> simp only [wordShape] <;> omega

/-- The decoder of a port answers a command exactly when the word is that command and the port admits it. -/
theorem decode_eq_command {p : Port} {w : Word} {i : Instr} :
    decode p w = .command i ↔ decodeWord w = .command i ∧ i.port = p := by
  unfold decode
  cases h : decodeWord w with
  | invalid why => simp
  | command j =>
    simp only [Decoded.command.injEq]
    split
    · rename_i hp; constructor
      · rintro h; cases h; exact ⟨rfl, hp⟩
      · rintro ⟨rfl, -⟩; rfl
    · rename_i hp; simp only [reduceCtorEq, false_iff, not_and]; rintro rfl; exact hp

/-! ### The encoder -/

theorem or_toNat_of_low {a b : Word} {k : Nat} (ha : a.toNat % 2 ^ k = 0) (hb : b.toNat < 2 ^ k) :
    (a ||| b).toNat = a.toNat + b.toNat := by
  rw [BitVec.toNat_or]
  have hk : a.toNat = 2 ^ k * (a.toNat / 2 ^ k) := by
    have := Nat.div_add_mod a.toNat (2 ^ k); omega
  rw [hk, ← Nat.two_pow_add_eq_or_of_lt hb]

/-- Words of one shape are one word. -/
theorem wordShape_inj {w v : Word} {i : Instr} (hw : wordShape w.toNat i) (hv : wordShape v.toNat i) : w = v := by
  apply BitVec.eq_of_toNat_eq
  cases i <;> simp only [wordShape] at hw hv <;> omega

end Sys2Proof
end

