-- ==== Sys2Proof/Laws/State.lean ====
section
/-! SUPPORT. What each total operation on State does to each field, one lemma per field, true by `rfl`. -/

namespace Sys2Proof.Machine

@[simp] theorem State.emit_cfg (s : State) (e : Event) : (s.emit e).cfg = s.cfg := rfl
@[simp] theorem State.emit_rx (s : State) (e : Event) : (s.emit e).rx = s.rx := rfl
@[simp] theorem State.emit_tx (s : State) (e : Event) : (s.emit e).tx = s.tx := rfl
@[simp] theorem State.emit_dma (s : State) (e : Event) : (s.emit e).dma = s.dma := rfl
@[simp] theorem State.emit_ch (s : State) (e : Event) : (s.emit e).ch = s.ch := rfl
@[simp] theorem State.emit_inputs (s : State) (e : Event) : (s.emit e).inputs = s.inputs := rfl
@[simp] theorem State.emit_appIn (s : State) (e : Event) : (s.emit e).appIn = s.appIn := rfl
@[simp] theorem State.emit_events (s : State) (e : Event) : (s.emit e).events = s.events ++ [e] := rfl
@[simp] theorem State.emit_resets (s : State) (e : Event) : (s.emit e).resets = s.resets := rfl

@[simp] theorem State.answer_cfg (s : State) (i : Instr) (st : Status) (inp out : List Byte) : (s.answer i st inp out).cfg = s.cfg := rfl
@[simp] theorem State.answer_rx (s : State) (i : Instr) (st : Status) (inp out : List Byte) : (s.answer i st inp out).rx = s.rx := rfl
@[simp] theorem State.answer_tx (s : State) (i : Instr) (st : Status) (inp out : List Byte) : (s.answer i st inp out).tx = s.tx := rfl
@[simp] theorem State.answer_dma (s : State) (i : Instr) (st : Status) (inp out : List Byte) : (s.answer i st inp out).dma = s.dma := rfl
@[simp] theorem State.answer_ch (s : State) (i : Instr) (st : Status) (inp out : List Byte) : (s.answer i st inp out).ch = s.ch := rfl
@[simp] theorem State.answer_inputs (s : State) (i : Instr) (st : Status) (inp out : List Byte) : (s.answer i st inp out).inputs = s.inputs := rfl
@[simp] theorem State.answer_appIn (s : State) (i : Instr) (st : Status) (inp out : List Byte) : (s.answer i st inp out).appIn = s.appIn := rfl
@[simp] theorem State.answer_events (s : State) (i : Instr) (st : Status) (inp out : List Byte) : (s.answer i st inp out).events = s.events ++ [.returned ⟨i, st, inp, out⟩] := rfl
@[simp] theorem State.answer_resets (s : State) (i : Instr) (st : Status) (inp out : List Byte) : (s.answer i st inp out).resets = s.resets := rfl

@[simp] theorem State.raise_cfg (s : State) (i : Instr) (st : Status) : (s.raise i st).cfg = s.cfg := rfl
@[simp] theorem State.raise_rx (s : State) (i : Instr) (st : Status) : (s.raise i st).rx = s.rx := rfl
@[simp] theorem State.raise_tx (s : State) (i : Instr) (st : Status) : (s.raise i st).tx = s.tx := rfl
@[simp] theorem State.raise_dma (s : State) (i : Instr) (st : Status) : (s.raise i st).dma = s.dma := rfl
@[simp] theorem State.raise_ch (s : State) (i : Instr) (st : Status) : (s.raise i st).ch = s.ch := rfl
@[simp] theorem State.raise_inputs (s : State) (i : Instr) (st : Status) : (s.raise i st).inputs = s.inputs := rfl
@[simp] theorem State.raise_appIn (s : State) (i : Instr) (st : Status) : (s.raise i st).appIn = s.appIn := rfl
@[simp] theorem State.raise_events (s : State) (i : Instr) (st : Status) : (s.raise i st).events = s.events ++ [.returned ⟨i, st, [], []⟩] := rfl
@[simp] theorem State.raise_resets (s : State) (i : Instr) (st : Status) : (s.raise i st).resets = s.resets := rfl

@[simp] theorem State.rxClear_cfg (s : State) : s.rxClear.cfg = s.cfg := rfl
@[simp] theorem State.rxClear_rx (s : State) : s.rxClear.rx = ⟨[], 0, 0, 0⟩ := rfl
@[simp] theorem State.rxClear_tx (s : State) : s.rxClear.tx = s.tx := rfl
@[simp] theorem State.rxClear_dma (s : State) : s.rxClear.dma = s.dma := rfl
@[simp] theorem State.rxClear_ch (s : State) : s.rxClear.ch = s.ch := rfl
@[simp] theorem State.rxClear_inputs (s : State) : s.rxClear.inputs = s.inputs := rfl
@[simp] theorem State.rxClear_appIn (s : State) : s.rxClear.appIn = s.appIn := rfl
@[simp] theorem State.rxClear_events (s : State) : s.rxClear.events = s.events := rfl
@[simp] theorem State.rxClear_resets (s : State) : s.rxClear.resets = s.resets := rfl

@[simp] theorem State.rxDrop_cfg (s : State) (n : Nat) : (s.rxDrop n).cfg = s.cfg := rfl
@[simp] theorem State.rxDrop_rx (s : State) (n : Nat) : (s.rxDrop n).rx = ⟨s.rx.mem, s.rx.head, (s.rx.tail + n) % s.cfg.rc, s.rx.count - n⟩ := rfl
@[simp] theorem State.rxDrop_tx (s : State) (n : Nat) : (s.rxDrop n).tx = s.tx := rfl
@[simp] theorem State.rxDrop_dma (s : State) (n : Nat) : (s.rxDrop n).dma = s.dma := rfl
@[simp] theorem State.rxDrop_ch (s : State) (n : Nat) : (s.rxDrop n).ch = s.ch := rfl
@[simp] theorem State.rxDrop_inputs (s : State) (n : Nat) : (s.rxDrop n).inputs = s.inputs := rfl
@[simp] theorem State.rxDrop_appIn (s : State) (n : Nat) : (s.rxDrop n).appIn = s.appIn := rfl
@[simp] theorem State.rxDrop_events (s : State) (n : Nat) : (s.rxDrop n).events = s.events := rfl
@[simp] theorem State.rxDrop_resets (s : State) (n : Nat) : (s.rxDrop n).resets = s.resets := rfl

@[simp] theorem State.txClear_cfg (s : State) : s.txClear.cfg = s.cfg := rfl
@[simp] theorem State.txClear_rx (s : State) : s.txClear.rx = s.rx := rfl
@[simp] theorem State.txClear_tx (s : State) : s.txClear.tx = ⟨s.tx.blk, List.replicate s.cfg.nb 0, 0, 0, 0, .idle⟩ := rfl
@[simp] theorem State.txClear_dma (s : State) : s.txClear.dma = ⟨false, s.dma.tcie, s.dma.blk, s.dma.len⟩ := rfl
@[simp] theorem State.txClear_ch (s : State) : s.txClear.ch = s.ch := rfl
@[simp] theorem State.txClear_inputs (s : State) : s.txClear.inputs = s.inputs := rfl
@[simp] theorem State.txClear_appIn (s : State) : s.txClear.appIn = s.appIn := rfl
@[simp] theorem State.txClear_events (s : State) : s.txClear.events = s.events := rfl
@[simp] theorem State.txClear_resets (s : State) : s.txClear.resets = s.resets := rfl

@[simp] theorem State.goIdle_cfg (s : State) : s.goIdle.cfg = s.cfg := rfl
@[simp] theorem State.goIdle_rx (s : State) : s.goIdle.rx = s.rx := rfl
@[simp] theorem State.goIdle_tx (s : State) : s.goIdle.tx = ⟨s.tx.blk, s.tx.used, s.tx.head, s.tx.tail, s.tx.count, .idle⟩ := rfl
@[simp] theorem State.goIdle_dma (s : State) : s.goIdle.dma = ⟨false, s.dma.tcie, s.dma.blk, s.dma.len⟩ := rfl
@[simp] theorem State.goIdle_ch (s : State) : s.goIdle.ch = s.ch := rfl
@[simp] theorem State.goIdle_inputs (s : State) : s.goIdle.inputs = s.inputs := rfl
@[simp] theorem State.goIdle_appIn (s : State) : s.goIdle.appIn = s.appIn := rfl
@[simp] theorem State.goIdle_events (s : State) : s.goIdle.events = s.events := rfl
@[simp] theorem State.goIdle_resets (s : State) : s.goIdle.resets = s.resets := rfl

@[simp] theorem State.hardReset_cfg (s : State) : s.hardReset.cfg = s.cfg := rfl
@[simp] theorem State.hardReset_rx (s : State) : s.hardReset.rx = ⟨[], 0, 0, 0⟩ := rfl
@[simp] theorem State.hardReset_tx (s : State) : s.hardReset.tx = ⟨[], List.replicate s.cfg.nb 0, 0, 0, 0, .idle⟩ := rfl
@[simp] theorem State.hardReset_dma (s : State) : s.hardReset.dma = ⟨false, false, 0, 0⟩ := rfl
@[simp] theorem State.hardReset_ch (s : State) : s.hardReset.ch = ⟨false, false⟩ := rfl
@[simp] theorem State.hardReset_inputs (s : State) : s.hardReset.inputs = s.inputs := rfl
@[simp] theorem State.hardReset_appIn (s : State) : s.hardReset.appIn = [] := rfl
@[simp] theorem State.hardReset_events (s : State) : s.hardReset.events = [] := rfl
@[simp] theorem State.hardReset_resets (s : State) : s.hardReset.resets = s.resets + 1 := rfl

end Sys2Proof.Machine
end

