-- ==== Sys2Proof/Laws/Memory.lean ====
section
/-! SUPPORT. The laws of the byte memories: a read after a write, and that every memory operation keeps the
canonical form. -/

namespace Sys2Proof.Machine

/-! ### Reading after writing -/

theorem Mem.find_set (m : Mem) (a b : Nat) (v : Byte) :
    Mem.find (Mem.set m a v) b = if b = a then some v else Mem.find m b := by
  induction m with
  | nil => simp [Mem.set, Mem.find, eq_comm]
  | cons c m ih =>
    simp only [Mem.set]
    split_ifs with h1 h2 <;> simp only [Mem.find, ih] <;> split_ifs <;> first | rfl | omega

theorem Mem.find_erase (m : Mem) (a b : Nat) :
    Mem.find (Mem.erase m a) b = if b = a then none else Mem.find m b := by
  induction m with
  | nil => simp [Mem.erase, Mem.find]
  | cons c m ih =>
    simp only [Mem.erase] at ih ⊢
    by_cases h : c.1 = a
    · subst h
      simp only [bne_self_eq_false, Bool.false_eq_true, not_false_eq_true, List.filter_cons_of_neg, ih, Mem.find]
      split_ifs <;> first | rfl | omega
    · have h' : (c.1 != a) = true := by simpa using h
      simp only [List.filter_cons_of_pos (p := fun c : Host.Cell => c.1 != a) h', Mem.find, ih]
      split_ifs <;> first | rfl | omega

/-- What an address reads as, the unlisted value included. -/
theorem Mem.read_write (u : Option Byte) (m : Mem) (a b : Nat) (v : Byte) :
    (Mem.find (Mem.write u m a v) b).or u = if b = a then some v else (Mem.find m b).or u := by
  unfold Mem.write
  split
  · rename_i h
    rw [Mem.find_erase]
    split_ifs <;> simp [h]
  · rw [Mem.find_set]
    split_ifs <;> simp

theorem Mem.write_tx (m : Mem) (a : Nat) (v : Byte) : Mem.write txUnlisted m a v = Mem.set m a v := rfl

/-- A run of bytes written to TXMEM is listed byte for byte; every other address keeps its entry. -/
theorem Mem.find_writeRun_tx (vs : List Byte) (m : Mem) (a b : Nat) :
    Mem.find (Mem.writeRun txUnlisted m a vs) b =
      if a ≤ b ∧ b < a + vs.length then vs[b - a]? else Mem.find m b := by
  induction vs generalizing m a with
  | nil =>
    have : ¬ (a ≤ b ∧ b < a) := by omega
    simp [Mem.writeRun, this]
  | cons v vs ih =>
    simp only [Mem.writeRun, ih, Mem.write_tx, Mem.find_set, List.length_cons]
    rcases Nat.lt_trichotomy b a with h | h | h
    · simp [show ¬ a + 1 ≤ b by omega, show ¬ a ≤ b by omega, show b ≠ a by omega]
    · subst h; simp
    · have e : b - a = (b - (a + 1)) + 1 := by omega
      simp only [show b ≠ a by omega, if_false, e, List.getElem?_cons_succ]
      by_cases hb : b < a + 1 + vs.length
      · simp [show a + 1 ≤ b by omega, hb, show a ≤ b by omega, show b < a + (vs.length + 1) by omega]
      · simp [hb, show ¬ b < a + (vs.length + 1) by omega]

/-! ### The canonical form -/

theorem Mem.mem_set {m : Mem} {a : Nat} {v : Byte} {c : Host.Cell} (h : c ∈ Mem.set m a v) :
    c = (a, v) ∨ c ∈ m := by
  induction m with
  | nil => simpa [Mem.set] using h
  | cons d m ih =>
    simp only [Mem.set] at h
    split_ifs at h <;> simp only [List.mem_cons] at h ⊢
    · tauto
    · tauto
    · rcases h with h | h
      · exact .inr (.inl h)
      · rcases ih h with h | h
        · exact .inl h
        · exact .inr (.inr h)

theorem Mem.set_pairwise {m : Mem} (a : Nat) (v : Byte) (h : m.Pairwise (fun c d => c.1 < d.1)) :
    (Mem.set m a v).Pairwise (fun c d => c.1 < d.1) := by
  induction m with
  | nil => simp [Mem.set]
  | cons d m ih =>
    obtain ⟨hd, hm⟩ := List.pairwise_cons.mp h
    simp only [Mem.set]
    split_ifs with h1 h2
    · refine List.pairwise_cons.mpr ⟨fun c hc => ?_, h⟩
      rcases List.mem_cons.mp hc with rfl | hc
      · exact h1
      · exact Nat.lt_trans h1 (hd c hc)
    · exact List.pairwise_cons.mpr ⟨fun c hc => by simpa [h2] using hd c hc, hm⟩
    · refine List.pairwise_cons.mpr ⟨fun c hc => ?_, ih hm⟩
      rcases Mem.mem_set hc with rfl | hc
      · simp only; omega
      · exact hd c hc

theorem Mem.wf_nil (u : Option Byte) (n : Nat) : Mem.wf u n [] := by simp [Mem.wf]

theorem Mem.wf_write {u : Option Byte} {n a : Nat} {m : Mem} (v : Byte) (h : Mem.wf u n m) (ha : a < n) :
    Mem.wf u n (Mem.write u m a v) := by
  obtain ⟨hp, hm⟩ := h
  unfold Mem.write
  split
  · exact ⟨hp.filter _, fun c hc => hm c (List.mem_of_mem_filter hc)⟩
  · rename_i hv
    refine ⟨Mem.set_pairwise a v hp, fun c hc => ?_⟩
    rcases Mem.mem_set hc with rfl | hc
    · exact ⟨ha, hv⟩
    · exact hm c hc

theorem Mem.wf_writeRun {u : Option Byte} {n : Nat} (vs : List Byte) {m : Mem} {a : Nat} (h : Mem.wf u n m)
    (ha : a + vs.length ≤ n) : Mem.wf u n (Mem.writeRun u m a vs) := by
  induction vs generalizing m a with
  | nil => exact h
  | cons v vs ih =>
    simp only [List.length_cons] at ha
    exact ih (Mem.wf_write v h (by omega)) (by omega)

/-! ### The two spaces of the block -/

/-- Reading RXMEM after a write to it. -/
theorem State.rxRead_write (s t : State) (a b : Nat) (v : Byte)
    (h : t.rx.mem = Mem.write rxUnlisted s.rx.mem a v) :
    t.rxRead b = if b = a then v else s.rxRead b := by
  simp only [State.rxRead, h, Mem.read_write]
  split_ifs <;> rfl

theorem State.rxRead_congr {s t : State} (h : t.rx.mem = s.rx.mem) : t.rxRead = s.rxRead := by
  funext a; simp [State.rxRead, h]

/-- Reading TXMEM after a run of bytes was written to it. -/
theorem State.txRead_writeRun (s t : State) (a b : Nat) (vs : List Byte)
    (hr : t.resets = s.resets) (h : t.tx.blk = Mem.writeRun txUnlisted s.tx.blk a vs) :
    t.txRead b = if a ≤ b ∧ b < a + vs.length then vs.getD (b - a) 0 else s.txRead b := by
  simp only [State.txRead, h, hr, Mem.find_writeRun_tx]
  split_ifs with hb
  · have : b - a < vs.length := by omega
    simp [List.getElem?_eq_getElem this, List.getD]
  · rfl

theorem State.txRead_congr {s t : State} (hr : t.resets = s.resets) (h : t.tx.blk = s.tx.blk) :
    t.txRead = s.txRead := by
  funext a; simp [State.txRead, h, hr]

end Sys2Proof.Machine
end

