-- ==== Sys2Proof/Laws/Ops.lean ====
section
/-! SUPPORT. One lemma per shared operation that says everything it can do, and the arithmetic of slots and
addresses. -/

namespace Sys2Proof.Machine

/-! ### Arithmetic -/

/-- Going round a ring of `n` from the same place, different distances below `n` lead to different places. -/
theorem ring_index_inj {n a i j : Nat} (hi : i < n) (hj : j < n) (h : (a + i) % n = (a + j) % n) : i = j := by
  have h' : i ≡ j [MOD n] := Nat.ModEq.add_left_cancel' a h
  rwa [Nat.ModEq, Nat.mod_eq_of_lt hi, Nat.mod_eq_of_lt hj] at h'

/-- TXMEM addresses of different slots, or of different offsets in one slot, differ (20_memory.md R45). -/
theorem txAddr_inj {w b c i j : Nat} (hi : i < w) (hj : j < w) (h : b * w + i = c * w + j) : b = c ∧ i = j := by
  have hw : 0 < w := by omega
  have hb : (b * w + i) / w = b := by
    rw [Nat.mul_comm, Nat.mul_add_div hw, Nat.div_eq_of_lt hi, Nat.add_zero]
  have hc : (c * w + j) / w = c := by
    rw [Nat.mul_comm, Nat.mul_add_div hw, Nat.div_eq_of_lt hj, Nat.add_zero]
  have : b = c := by rw [← hb, ← hc, h]
  exact ⟨this, by subst this; omega⟩

/-- A slot's bytes lie inside TXMEM (20_memory.md R40). -/
theorem txAddr_le {w n b k : Nat} (hb : b < n) (hk : k ≤ w) : b * w + k ≤ n * w := by
  calc b * w + k ≤ b * w + w := by omega
    _ = (b + 1) * w := by rw [Nat.add_mul, Nat.one_mul]
    _ ≤ n * w := Nat.mul_le_mul_right w (by omega)

/-! ### Slots -/

theorem State.slotExists_iff (s : State) (b : Nat) :
    s.slotExists b = true ↔ b < s.cfg.nb ∧ b < s.tx.used.length := by
  simp [State.slotExists]

theorem State.rxFull_iff (s : State) : s.rxFull = true ↔ s.rx.count = s.cfg.rc := by simp [State.rxFull]
theorem State.rxEmpty_iff (s : State) : s.rxEmpty = true ↔ s.rx.count = 0 := by simp [State.rxEmpty]
theorem State.txFull_iff (s : State) : s.txFull = true ↔ s.tx.count = s.cfg.nb := by simp [State.txFull]
theorem State.txEmpty_iff (s : State) : s.txEmpty = true ↔ s.tx.count = 0 := by simp [State.txEmpty]

/-- `tx.used` after one entry is written. -/
theorem usedAt_set {s t : State} {b n : Nat} (h : t.tx.used = s.tx.used.set b n) (hb : b < s.tx.used.length)
    (c : Nat) : t.usedAt c = if c = b then n else s.usedAt c := by
  simp only [State.usedAt, h, List.getD_eq_getElem?_getD]
  by_cases hc : c = b
  · subst hc; simp [List.getElem?_set_self hb]
  · simp [List.getElem?_set_ne (Ne.symm hc), hc]

theorem usedAt_congr {s t : State} (h : t.tx.used = s.tx.used) : t.usedAt = s.usedAt := by
  funext b; simp [State.usedAt, h]

theorem slotBytes_congr {s t : State} {b n : Nat} (hc : t.cfg = s.cfg)
    (h : ∀ i < n, t.txRead (s.txAddr b i) = s.txRead (s.txAddr b i)) : t.slotBytes b n = s.slotBytes b n := by
  refine List.map_congr_left fun i hi => ?_
  simpa [State.txAddr, hc] using h i (List.mem_range.mp hi)

@[simp] theorem State.length_slotBytes (s : State) (b n : Nat) : (s.slotBytes b n).length = n := by
  simp [State.slotBytes]

@[simp] theorem State.length_rxRun (s : State) (n : Nat) : (s.rxRun n).length = n := by
  simp [State.rxRun]

/-! ### The trace -/

theorem txTrace_emit (s : State) (e : Event) : (s.emit e).txTrace = s.txTrace ++ e.arm?.toList := by
  simp [State.txTrace, List.filterMap_append, List.filterMap_cons]
  cases e.arm? <;> rfl

/-! ### What each shared operation can do -/

theorem formed_eq_next {o : Option State} {t : State} : formed o = .next t ↔ o = some t := by
  cases o <;> simp [formed]

theorem State.rxStore_eq_some {s t : State} {b : Byte} :
    s.rxStore b = some t ↔ s.rx.head < s.cfg.rc ∧
      t = { s with rx := ⟨Mem.write rxUnlisted s.rx.mem s.rx.head b, (s.rx.head + 1) % s.cfg.rc, s.rx.tail,
                          s.rx.count + 1⟩ } := by
  simp only [State.rxStore]
  split_ifs with h
  · simp only [h, true_and, Option.some.injEq]; exact eq_comm
  · simp [h]

theorem State.retire_eq_some {s t : State} :
    s.retire = some t ↔ (s.slotExists s.tx.tail = true ∧ 0 < s.tx.count) ∧
      t = { s with
        tx := ⟨s.tx.blk, s.tx.used.set s.tx.tail 0, s.tx.head, (s.tx.tail + 1) % s.cfg.nb, s.tx.count - 1,
               s.tx.dmaState⟩
        events := s.events ++ [.dmaClr] } := by
  simp only [State.retire]
  split_ifs with h
  · simp only [h, and_self, true_and, Option.some.injEq]; exact eq_comm
  · simp [h]

theorem State.arm_eq_some {s t : State} :
    s.arm = some t ↔ (s.slotExists s.tx.tail = true ∧ s.usedAt s.tx.tail ≤ s.cfg.bs) ∧
      t = { s with
        tx := ⟨s.tx.blk, s.tx.used, s.tx.head, s.tx.tail, s.tx.count, .transmitting⟩
        dma := ⟨true, true, s.tx.tail, s.usedAt s.tx.tail⟩
        events := s.events ++
          [.armed ⟨s.tx.tail, s.usedAt s.tx.tail, s.slotBytes s.tx.tail (s.usedAt s.tx.tail)⟩] } := by
  simp only [State.arm]
  split_ifs with h
  · simp only [h, and_self, true_and, Option.some.injEq]; exact eq_comm
  · simp [h]

/-- Arm the oldest block if there is one, else go idle. -/
theorem State.armOrIdle_eq_some {s t : State} :
    s.armOrIdle = some t ↔ (s.tx.count = 0 ∧ t = s.goIdle) ∨ (s.tx.count ≠ 0 ∧ s.arm = some t) := by
  simp only [State.armOrIdle]
  by_cases h : s.tx.count = 0
  · simp only [(State.txEmpty_iff s).mpr h, if_true, h, true_and, ne_eq, not_true_eq_false, false_and, or_false,
      Option.some.injEq]
    exact eq_comm
  · simp [h, State.txEmpty]

/-- The pump step's rows (41_tx_queue.md R109). -/
theorem State.pump_eq_some {s t : State} :
    s.pump = some t ↔
      (s.tx.dmaState = .transmitting ∧ t = s) ∨
      (s.tx.dmaState = .idle ∧ s.armOrIdle = some t) ∨
      (s.tx.dmaState = .transferDone ∧ ∃ r, s.retire = some r ∧ r.armOrIdle = some t) := by
  simp only [State.pump]
  cases h : s.tx.dmaState
  · simp
  · simpa using eq_comm
  · simp [Option.bind_eq_some_iff]

theorem State.fillBlock_eq_some {s t : State} {bytes : List Byte} :
    s.fillBlock bytes = some t ↔ s.slotExists s.tx.head = true ∧
      t = { s with
        tx := ⟨Mem.writeRun txUnlisted s.tx.blk (s.txAddr s.tx.head 0) bytes,
               s.tx.used.set s.tx.head bytes.length, (s.tx.head + 1) % s.cfg.nb, s.tx.tail, s.tx.count + 1,
               s.tx.dmaState⟩ } := by
  simp only [State.fillBlock]
  split_ifs with h
  · simp only [h, true_and, Option.some.injEq]; exact eq_comm
  · simp [h]

theorem State.fillBlocks_zero {s t : State} {data : List Byte} :
    State.fillBlocks 0 data s = some t ↔ t = s := by
  simp [State.fillBlocks, eq_comm]

theorem State.fillBlocks_succ {s t : State} {k : Nat} {data : List Byte} :
    State.fillBlocks (k + 1) data s = some t ↔
      ∃ r, s.fillBlock (data.take s.cfg.bs) = some r ∧ State.fillBlocks k (data.drop s.cfg.bs) r = some t := by
  simp [State.fillBlocks, Option.bind_eq_some_iff]

/-- What holds before the first block and is kept by every block holds after the last. -/
theorem State.fillBlocks_keeps {P : State → Prop}
    (step : ∀ {r u : State} {bytes : List Byte}, P r → r.fillBlock bytes = some u → P u)
    {s t : State} {k : Nat} {data : List Byte} (hs : P s) (h : State.fillBlocks k data s = some t) : P t := by
  induction k generalizing s data with
  | zero => exact (State.fillBlocks_zero.mp h) ▸ hs
  | succ k ih =>
    obtain ⟨r, h1, h2⟩ := State.fillBlocks_succ.mp h
    exact ih (step hs h1) h2

/-! ### What the TX operations leave alone -/

/-- Everything outside the TX queue, the DMA registers and the events is the same. -/
abbrev State.txFrame (s t : State) : Prop :=
  t.cfg = s.cfg ∧ t.rx = s.rx ∧ t.ch = s.ch ∧ t.inputs = s.inputs ∧ t.appIn = s.appIn ∧ t.resets = s.resets

theorem State.txFrame_refl (s : State) : s.txFrame s := ⟨rfl, rfl, rfl, rfl, rfl, rfl⟩

theorem State.txFrame.trans {s t u : State} (h1 : s.txFrame t) (h2 : t.txFrame u) : s.txFrame u := by
  obtain ⟨a, b, c, d, e, f⟩ := h1
  obtain ⟨a', b', c', d', e', f'⟩ := h2
  exact ⟨a'.trans a, b'.trans b, c'.trans c, d'.trans d, e'.trans e, f'.trans f⟩

theorem State.retire_frame {s t : State} (h : s.retire = some t) : s.txFrame t := by
  rw [(State.retire_eq_some.mp h).2]; exact ⟨rfl, rfl, rfl, rfl, rfl, rfl⟩

theorem State.armOrIdle_frame {s t : State} (h : s.armOrIdle = some t) : s.txFrame t := by
  rcases State.armOrIdle_eq_some.mp h with ⟨-, rfl⟩ | ⟨-, h⟩
  · exact ⟨rfl, rfl, rfl, rfl, rfl, rfl⟩
  · rw [(State.arm_eq_some.mp h).2]; exact ⟨rfl, rfl, rfl, rfl, rfl, rfl⟩

theorem State.pump_frame {s t : State} (h : s.pump = some t) : s.txFrame t := by
  rcases State.pump_eq_some.mp h with ⟨-, rfl⟩ | ⟨-, h⟩ | ⟨-, r, h1, h2⟩
  · exact State.txFrame_refl _
  · exact State.armOrIdle_frame h
  · exact (State.retire_frame h1).trans (State.armOrIdle_frame h2)

theorem State.fillBlock_frame {s t : State} {bytes : List Byte} (h : s.fillBlock bytes = some t) :
    s.txFrame t := by
  rw [(State.fillBlock_eq_some.mp h).2]; exact ⟨rfl, rfl, rfl, rfl, rfl, rfl⟩

theorem State.fillBlocks_frame {s t : State} {k : Nat} {data : List Byte}
    (h : State.fillBlocks k data s = some t) : s.txFrame t :=
  State.fillBlocks_keeps (P := fun r => s.txFrame r) (fun hr hu => hr.trans (State.fillBlock_frame hu))
    (State.txFrame_refl s) h

/-- Filling blocks touches only the TX queue. -/
theorem State.fillBlocks_rest {s t : State} {k : Nat} {data : List Byte}
    (h : State.fillBlocks k data s = some t) :
    t.dma = s.dma ∧ t.events = s.events ∧ t.tx.tail = s.tx.tail ∧ t.tx.dmaState = s.tx.dmaState ∧
      t.tx.used.length = s.tx.used.length := by
  refine State.fillBlocks_keeps (P := fun r => r.dma = s.dma ∧ r.events = s.events ∧ r.tx.tail = s.tx.tail ∧
    r.tx.dmaState = s.tx.dmaState ∧ r.tx.used.length = s.tx.used.length) ?_ ⟨rfl, rfl, rfl, rfl, rfl⟩ h
  intro r u bytes hr hu
  rw [(State.fillBlock_eq_some.mp hu).2]
  simpa using hr

end Sys2Proof.Machine
end

