-- ==== Sys2Proof/Laws/Queue.lean ====
section
/-! SUPPORT. The contents of the TX queue: what filling blocks, retiring and arming do to the queued slots, their
bytes and their used sizes. -/

namespace Sys2Proof.Machine

/-! ### Slots of the queue -/

theorem State.slotAt_lt {s : State} (h : 0 < s.cfg.nb) (j : Nat) : s.slotAt j < s.cfg.nb := Nat.mod_lt _ h

theorem State.slotAt_inj {s : State} {i j : Nat} (hi : i < s.cfg.nb) (hj : j < s.cfg.nb)
    (h : s.slotAt i = s.slotAt j) : i = j := ring_index_inj hi hj h

theorem State.slotAt_congr {s t : State} (hc : t.cfg = s.cfg) (ht : t.tx.tail = s.tx.tail) :
    t.slotAt = s.slotAt := by funext j; simp [State.slotAt, hc, ht]

theorem State.slotAt_zero {s : State} (h : s.tx.tail < s.cfg.nb) : s.slotAt 0 = s.tx.tail := by
  simp [State.slotAt, Nat.mod_eq_of_lt h]

/-- Every slot is some distance from the tail. -/
theorem State.exists_slotAt {s : State} {b : Nat} (ht : s.tx.tail < s.cfg.nb) (hb : b < s.cfg.nb) :
    ∃ j < s.cfg.nb, s.slotAt j = b := by
  by_cases h : s.tx.tail ≤ b
  · refine ⟨b - s.tx.tail, by omega, ?_⟩
    rw [State.slotAt, show s.tx.tail + (b - s.tx.tail) = b by omega, Nat.mod_eq_of_lt hb]
  · refine ⟨b + s.cfg.nb - s.tx.tail, by omega, ?_⟩
    rw [State.slotAt, show s.tx.tail + (b + s.cfg.nb - s.tx.tail) = b + s.cfg.nb by omega, Nat.add_mod_right,
      Nat.mod_eq_of_lt hb]

/-- The head is the first free slot (10_state.md R22). -/
theorem State.txInv.head_eq {s : State} (h : s.txInv) : s.tx.head = s.slotAt s.tx.count := h.2.2.2.1

theorem State.txInv.used_le {s : State} (h : s.txInv) (b : Nat) : s.usedAt b ≤ s.cfg.bs := by
  obtain ⟨-, -, htail, -, hlen, hq, hf⟩ := h
  by_cases hb : b < s.cfg.nb
  · obtain ⟨j, hj, rfl⟩ := State.exists_slotAt htail hb
    by_cases hc : j < s.tx.count
    · exact (hq j hj hc).2
    · simp [hf j hj (by omega)]
  · have : s.tx.used.length ≤ b := by omega
    simp [State.usedAt, List.getD, List.getElem?_eq_none this]

theorem State.txInv.slotExists {s : State} (h : s.txInv) {b : Nat} (hb : b < s.cfg.nb) :
    s.slotExists b = true := by
  rw [State.slotExists_iff]; exact ⟨hb, by rw [h.2.2.2.2.1]; exact hb⟩

/-! ### Filling one block -/

theorem State.fillBlock_read {s t : State} {bytes : List Byte} (h : s.fillBlock bytes = some t) (a : Nat) :
    t.txRead a =
      if s.tx.head * s.cfg.bs ≤ a ∧ a < s.tx.head * s.cfg.bs + bytes.length
      then bytes.getD (a - s.tx.head * s.cfg.bs) 0 else s.txRead a := by
  obtain ⟨-, rfl⟩ := State.fillBlock_eq_some.mp h
  exact State.txRead_writeRun s _ (s.txAddr s.tx.head 0) a bytes rfl rfl

theorem State.fillBlock_used {s t : State} {bytes : List Byte} (h : s.fillBlock bytes = some t) (b : Nat) :
    t.usedAt b = if b = s.tx.head then bytes.length else s.usedAt b := by
  obtain ⟨hs, rfl⟩ := State.fillBlock_eq_some.mp h
  exact usedAt_set rfl ((State.slotExists_iff _ _).mp hs).2 b

/-- The bytes of another slot stay as they were. -/
theorem State.fillBlock_other {s t : State} {bytes : List Byte} (h : s.fillBlock bytes = some t)
    (hl : bytes.length ≤ s.cfg.bs) {b i : Nat} (hb : b ≠ s.tx.head) (hi : i < s.cfg.bs) :
    t.txRead (b * s.cfg.bs + i) = s.txRead (b * s.cfg.bs + i) := by
  rw [State.fillBlock_read h, if_neg]
  rintro ⟨h1, h2⟩
  exact hb (txAddr_inj hi (j := b * s.cfg.bs + i - s.tx.head * s.cfg.bs) (by omega)
    (c := s.tx.head) (by omega)).1

theorem State.fillBlock_txInv {s t : State} {bytes : List Byte} (h : s.fillBlock bytes = some t)
    (hI : s.txInv) (hc : s.tx.count < s.cfg.nb) (h1 : 1 ≤ bytes.length) (h2 : bytes.length ≤ s.cfg.bs) :
    t.txInv := by
  have hu := State.fillBlock_used h
  have hf := State.fillBlock_frame h
  obtain ⟨hs, ht⟩ := State.fillBlock_eq_some.mp h
  have hnb : 0 < s.cfg.nb := by omega
  have hsl : t.slotAt = s.slotAt := State.slotAt_congr hf.1 (by rw [ht])
  obtain ⟨c1, c2, c3, c4, c5, c6, c7⟩ := hI
  have hhead : s.tx.head = s.slotAt s.tx.count := c4
  have hcount : t.tx.count = s.tx.count + 1 := by rw [ht]
  have hcfg : t.cfg = s.cfg := hf.1
  refine ⟨by rw [hcount, hcfg]; omega, ?_, by rw [ht]; exact c3, ?_, by rw [ht]; simpa using c5, ?_, ?_⟩
  · rw [ht]; exact Nat.mod_lt _ hnb
  · rw [ht]
    show (s.tx.head + 1) % s.cfg.nb = (s.tx.tail + (s.tx.count + 1)) % s.cfg.nb
    rw [c4, Nat.mod_add_mod, Nat.add_assoc]
  · intro j hj hjc
    rw [hcfg] at hj ⊢
    rw [hsl, hu]
    split_ifs with he
    · exact ⟨h1, h2⟩
    · refine c6 j hj ?_
      by_contra hn
      exact he (by rw [hhead]; congr 1; omega)
  · intro j hj hjc
    rw [hcfg] at hj
    rw [hsl, hu, if_neg, c7 j hj (by omega)]
    rw [hhead]
    intro he
    have := State.slotAt_inj hj hc he
    omega

theorem State.fillBlock_memory {s t : State} {bytes : List Byte} (h : s.fillBlock bytes = some t)
    (hm : Memory.wf s) (h2 : bytes.length ≤ s.cfg.bs) : Memory.wf t := by
  obtain ⟨hs, rfl⟩ := State.fillBlock_eq_some.mp h
  exact ⟨hm.1, Mem.wf_writeRun bytes hm.2 (txAddr_le ((State.slotExists_iff _ _).mp hs).1 h2)⟩

theorem State.fillBlock_queued {s t : State} {bytes : List Byte} (h : s.fillBlock bytes = some t)
    (hI : s.txInv) (hc : s.tx.count < s.cfg.nb) (h2 : bytes.length ≤ s.cfg.bs)
    {d : Nat} (hd : d ≤ s.tx.count) : t.queuedFrom d = s.queuedFrom d ++ bytes := by
  have hu := State.fillBlock_used h
  have hr := State.fillBlock_read h
  have hf := State.fillBlock_frame h
  have hother := fun {b i} => @State.fillBlock_other s t bytes h h2 b i
  obtain ⟨hs, ht⟩ := State.fillBlock_eq_some.mp h
  have hsl : t.slotAt = s.slotAt := State.slotAt_congr hf.1 (by rw [ht])
  have hcount : t.tx.count = s.tx.count + 1 := by rw [ht]
  have hhead := hI.head_eq
  have hcfg : t.cfg = s.cfg := hf.1
  unfold State.queuedFrom
  rw [hsl, hcount, show s.tx.count + 1 - d = (s.tx.count - d) + 1 by omega, List.range_succ, List.flatMap_append,
    List.flatMap_singleton, show d + (s.tx.count - d) = s.tx.count by omega, ← hhead, hu, if_pos rfl]
  congr 1
  · simp only [List.flatMap_def]
    congr 1
    refine List.map_congr_left fun j hj => ?_
    have hj' : d + j < s.tx.count := by have := List.mem_range.mp hj; omega
    have hne : s.slotAt (d + j) ≠ s.tx.head := by
      rw [hhead]; intro he
      have := State.slotAt_inj (by omega) hc he; omega
    rw [hu, if_neg hne]
    refine slotBytes_congr hcfg fun i hi => ?_
    exact hother hne (Nat.lt_of_lt_of_le hi (hI.used_le _))
  · refine List.ext_getElem (by simp) fun i hi1 hi2 => ?_
    simp only [State.slotBytes, List.getElem_map, List.getElem_range, State.txAddr, hcfg]
    rw [hr, if_pos (by omega)]
    simp [List.getD, hi2]

/-! ### Filling all blocks of a request -/

/-- `ceil(len / w)` blocks of `w` hold `len` bytes, and one fewer do not. -/
theorem blocksNeeded_bounds {w len : Nat} (hw : 1 ≤ w) :
    len ≤ blocksNeeded w len * w ∧ blocksNeeded w len * w < len + w := by
  unfold blocksNeeded
  have h1 := Nat.div_mul_le_self (len + w - 1) w
  have h2 : len + w - 1 < (len + w - 1) / w * w + w := Nat.lt_div_mul_add hw
  constructor <;> omega

theorem blocksNeeded_pos {w len : Nat} (hw : 1 ≤ w) (hl : 1 ≤ len) : 1 ≤ blocksNeeded w len := by
  unfold blocksNeeded
  exact (Nat.one_le_div_iff hw).mpr (by omega)

/-- Filling `k` blocks with data that needs exactly `k` (41_tx_queue.md R101, R102, R105): it succeeds where `k`
slots are free; the invariant, the count, the head, the used sizes, the queued bytes and every byte of TXMEM. -/
theorem State.fillBlocks_spec (k : Nat) (data : List Byte) (s : State) (hbs : 1 ≤ s.cfg.bs) (hI : s.txInv)
    (hk : s.tx.count + k ≤ s.cfg.nb) (hlo : k * s.cfg.bs < data.length + s.cfg.bs)
    (hhi : data.length ≤ k * s.cfg.bs) :
    ∃ t, State.fillBlocks k data s = some t ∧ t.txInv ∧ t.tx.count = s.tx.count + k ∧
      t.tx.head = (s.tx.head + k) % s.cfg.nb ∧
      (∀ j < k, t.usedAt ((s.tx.head + j) % s.cfg.nb) = min s.cfg.bs (data.length - j * s.cfg.bs)) ∧
      (∀ b, (∀ j < k, b ≠ (s.tx.head + j) % s.cfg.nb) → t.usedAt b = s.usedAt b) ∧
      (∀ d ≤ s.tx.count, t.queuedFrom d = s.queuedFrom d ++ data) ∧
      (∀ p < data.length,
        some (t.txRead ((s.tx.head + p / s.cfg.bs) % s.cfg.nb * s.cfg.bs + p % s.cfg.bs)) = data[p]?) ∧
      (∀ a, (∀ p < data.length, a ≠ (s.tx.head + p / s.cfg.bs) % s.cfg.nb * s.cfg.bs + p % s.cfg.bs) →
        t.txRead a = s.txRead a) ∧
      (Memory.wf s → Memory.wf t) := by
  induction k generalizing data s with
  | zero =>
    have hd : data = [] := by
      cases data with
      | nil => rfl
      | cons x xs => simp at hhi
    subst hd
    refine ⟨s, rfl, hI, rfl, ?_, by simp, by simp, by simp, by simp, by simp, id⟩
    rw [Nat.add_zero, Nat.mod_eq_of_lt hI.2.1]
  | succ k ih =>
    have hmul : (k + 1) * s.cfg.bs = k * s.cfg.bs + s.cfg.bs := by rw [Nat.add_mul, Nat.one_mul]
    have hlen : (data.take s.cfg.bs).length = min s.cfg.bs data.length := List.length_take
    have hdrop : (data.drop s.cfg.bs).length = data.length - s.cfg.bs := List.length_drop
    have hc : s.tx.count < s.cfg.nb := by omega
    have hnb : 0 < s.cfg.nb := by omega
    have hpos : 1 ≤ data.length := by omega
    obtain ⟨r, hr⟩ : ∃ r, s.fillBlock (data.take s.cfg.bs) = some r :=
      ⟨_, State.fillBlock_eq_some.mpr ⟨hI.slotExists hI.2.1, rfl⟩⟩
    have hcfg : r.cfg = s.cfg := (State.fillBlock_frame hr).1
    have hrI := State.fillBlock_txInv hr hI hc (by omega) (by omega)
    have hrq := fun d hd => State.fillBlock_queued hr hI hc (d := d) (by omega) hd
    have hru := State.fillBlock_used hr
    have hrr := State.fillBlock_read hr
    have hrm := fun hm => State.fillBlock_memory hr hm (by omega)
    have hreq := (State.fillBlock_eq_some.mp hr).2
    have hcount : r.tx.count = s.tx.count + 1 := by rw [hreq]
    have hhead : r.tx.head = (s.tx.head + 1) % s.cfg.nb := by rw [hreq]
    obtain ⟨t, h1, h2, h3, h4, h5, h6, h7, h8, h9, h10⟩ :=
      ih (data.drop s.cfg.bs) r (by rw [hcfg]; exact hbs) hrI (by rw [hcfg]; omega)
        (by rw [hcfg, hdrop]; omega) (by rw [hcfg, hdrop]; omega)
    rw [hcfg, hhead] at h4 h5 h6 h8 h9
    rw [hcfg] at *
    have hslot : ∀ j, ((s.tx.head + 1) % s.cfg.nb + j) % s.cfg.nb = (s.tx.head + (j + 1)) % s.cfg.nb := by
      intro j; rw [Nat.mod_add_mod]; congr 1; omega
    have hhd : s.tx.head = (s.tx.head + 0) % s.cfg.nb := by rw [Nat.add_zero, Nat.mod_eq_of_lt hI.2.1]
    refine ⟨t, State.fillBlocks_succ.mpr ⟨r, hr, h1⟩, h2, by omega, ?_, ?_, ?_, ?_, ?_, ?_, fun hm => h10 (hrm hm)⟩
    · rw [h4, hslot]
    · intro j hj
      cases j with
      | zero =>
        rw [h6, ← hhd, hru, if_pos rfl, hlen]
        · simp
        · intro j hj he
          rw [hslot] at he
          have := ring_index_inj (n := s.cfg.nb) (i := 0) (j := j + 1) hnb (by omega) he
          omega
      | succ j =>
        rw [← hslot, h5 j (by omega), hdrop, Nat.add_mul, Nat.one_mul]
        congr 1; omega
    · intro b hb
      rw [h6, hru, if_neg]
      · have := hb 0 (by omega)
        rwa [← hhd] at this
      · intro j hj
        rw [hslot]; exact hb (j + 1) (by omega)
    · intro d hd
      rw [h7 d (by omega), hrq d hd, List.append_assoc, List.take_append_drop]
    · intro p hp
      by_cases hpb : p < s.cfg.bs
      · rw [Nat.div_eq_of_lt hpb, Nat.mod_eq_of_lt hpb, ← hhd, h9, hrr, if_pos]
        · have e : s.tx.head * s.cfg.bs + p - s.tx.head * s.cfg.bs = p := by omega
          have hp' : p < (data.take s.cfg.bs).length := by omega
          rw [e, List.getD, List.getElem?_eq_getElem hp', Option.getD_some, List.getElem?_eq_getElem hp,
            List.getElem_take]
        · omega
        · intro q hq he
          rw [hslot] at he
          have hb := hhd.symm.trans (txAddr_inj hpb (Nat.mod_lt _ hbs) he).1
          have hqd : q / s.cfg.bs < k := by
            rw [Nat.div_lt_iff_lt_mul hbs]; omega
          exact absurd (ring_index_inj (n := s.cfg.nb) (i := 0) (j := q / s.cfg.bs + 1) hnb (by omega) hb)
            (Nat.succ_ne_zero _).symm
      · have hq := h8 (p - s.cfg.bs) (by omega)
        have hdiv : p / s.cfg.bs = (p - s.cfg.bs) / s.cfg.bs + 1 := by
          have hpe : p = (p - s.cfg.bs) + s.cfg.bs := by omega
          conv_lhs => rw [hpe]
          rw [Nat.add_div_right _ hbs]
        have hmod : p % s.cfg.bs = (p - s.cfg.bs) % s.cfg.bs := Nat.mod_eq_sub_mod (by omega)
        rw [hdiv, ← hslot, hmod, hq, List.getElem?_drop]
        congr 1; omega
    · intro a ha
      rw [h9, hrr, if_neg]
      · rintro ⟨ha1, ha2⟩
        have hpb : a - s.tx.head * s.cfg.bs < s.cfg.bs := by omega
        have := ha (a - s.tx.head * s.cfg.bs) (by omega)
        rw [Nat.div_eq_of_lt hpb, Nat.mod_eq_of_lt hpb, ← hhd] at this
        omega
      · intro q hq he
        have hdiv : (q + s.cfg.bs) / s.cfg.bs = q / s.cfg.bs + 1 := Nat.add_div_right _ hbs
        have := ha (q + s.cfg.bs) (by omega)
        rw [hdiv, ← hslot, Nat.add_mod_right] at this
        exact this he

end Sys2Proof.Machine
end

