-- ==== Sys2Proof/Laws/Pump.lean ====
section
/-! SUPPORT. What retiring, arming and going idle do to a queue that meets its invariant, and that the pump step
never fails on it. -/

namespace Sys2Proof.Machine

/-- Retiring the oldest block of a non-empty queue (41_tx_queue.md R110). -/
theorem State.retire_spec {s : State} (hI : s.txInv) (hc : 1 ≤ s.tx.count) :
    ∃ r, s.retire = some r ∧ r.txInv ∧
      (∀ j, r.slotAt j = s.slotAt (j + 1)) ∧ (∀ c, r.usedAt c = if c = s.tx.tail then 0 else s.usedAt c) ∧
      (∀ d, r.queuedFrom d = s.queuedFrom (d + 1)) ∧
      r.tx.tail = (s.tx.tail + 1) % s.cfg.nb ∧ r.tx.count + 1 = s.tx.count ∧ r.txRead = s.txRead := by
  obtain ⟨c1, c2, c3, c4, c5, c6, c7⟩ := hI
  have hsl := State.txInv.slotExists ⟨c1, c2, c3, c4, c5, c6, c7⟩ c3
  have hr := State.retire_eq_some.mpr ⟨⟨hsl, hc⟩, rfl⟩
  refine ⟨_, hr, ?_⟩
  generalize hrr : ({ s with tx := _, events := _ } : State) = r
  have hcfg : r.cfg = s.cfg := by rw [← hrr]
  have htail : r.tx.tail = (s.tx.tail + 1) % s.cfg.nb := by rw [← hrr]
  have hcnt : r.tx.count = s.tx.count - 1 := by rw [← hrr]
  have hread : r.txRead = s.txRead := State.txRead_congr (by rw [← hrr]) (by rw [← hrr])
  have hslot : ∀ j, r.slotAt j = s.slotAt (j + 1) := by
    intro j
    rw [State.slotAt, State.slotAt, htail, hcfg, Nat.mod_add_mod]
    congr 1; omega
  have hused : ∀ c, r.usedAt c = if c = s.tx.tail then 0 else s.usedAt c :=
    usedAt_set (by rw [← hrr]) ((State.slotExists_iff _ _).mp hsl).2
  have h0 : s.slotAt 0 = s.tx.tail := State.slotAt_zero c3
  have hne : ∀ j, j + 1 < s.cfg.nb → s.slotAt (j + 1) ≠ s.tx.tail := by
    intro j hj he
    rw [← h0] at he
    have := State.slotAt_inj hj (by omega) he
    omega
  refine ⟨⟨by rw [hcnt, hcfg]; omega, by rw [hcfg, ← hrr]; exact c2, ?_, ?_, ?_, ?_, ?_⟩, hslot, hused, ?_,
    htail, by omega, hread⟩
  · rw [htail, hcfg]; exact Nat.mod_lt _ (by omega)
  · rw [htail, hcnt, hcfg, Nat.mod_add_mod, show s.tx.tail + 1 + (s.tx.count - 1) = s.tx.tail + s.tx.count by omega,
      ← c4, ← hrr]
  · rw [hcfg, ← hrr]; simpa using c5
  · intro j hj hjc
    rw [hcfg] at hj ⊢
    rw [hslot, hused, if_neg (hne j (by omega))]
    exact c6 (j + 1) (by omega) (by omega)
  · intro j hj hjc
    rw [hcfg] at hj
    rw [hslot, hused]
    split_ifs with he
    · rfl
    · by_cases hjn : j + 1 < s.cfg.nb
      · exact c7 (j + 1) hjn (by omega)
      · refine absurd ?_ he
        rw [← h0, State.slotAt, State.slotAt, show j + 1 = s.cfg.nb by omega, Nat.add_mod_right, Nat.add_zero]
  · intro d
    unfold State.queuedFrom
    rw [hcnt, show s.tx.count - 1 - d = s.tx.count - (d + 1) by omega]
    simp only [List.flatMap_def]
    congr 1
    refine List.map_congr_left fun j hj => ?_
    have hj' := List.mem_range.mp hj
    rw [hslot, hused, if_neg (hne (d + j) (by omega)), show d + j + 1 = d + 1 + j by omega]
    exact slotBytes_congr hcfg fun i _ => by rw [hread]

/-- Arming never fails on a queue that meets its invariant. -/
theorem State.txInv.arm {s : State} (hI : s.txInv) :
    s.arm = some { s with
      tx := ⟨s.tx.blk, s.tx.used, s.tx.head, s.tx.tail, s.tx.count, .transmitting⟩
      dma := ⟨true, true, s.tx.tail, s.usedAt s.tx.tail⟩
      events := s.events ++
        [.armed ⟨s.tx.tail, s.usedAt s.tx.tail, s.slotBytes s.tx.tail (s.usedAt s.tx.tail)⟩] } :=
  State.arm_eq_some.mpr ⟨⟨hI.slotExists hI.2.2.1, hI.used_le _⟩, rfl⟩

theorem State.txInv.exists_armOrIdle {s : State} (hI : s.txInv) : ∃ t, s.armOrIdle = some t := by
  by_cases hc : s.tx.count = 0
  · exact ⟨_, State.armOrIdle_eq_some.mpr (.inl ⟨hc, rfl⟩)⟩
  · exact ⟨_, State.armOrIdle_eq_some.mpr (.inr ⟨hc, hI.arm⟩)⟩

/-- What arming or going idle leaves: the queue as it was, at rest (10_state.md R23). -/
theorem State.armOrIdle_spec {s t : State} (hI : s.txInv) (hd : s.dma.blk < s.cfg.nb ∧ s.dma.len ≤ s.cfg.bs)
    (h : s.armOrIdle = some t) :
    t.txInv ∧ t.restInv ∧ t.dmaInv ∧ t.tx.blk = s.tx.blk ∧ t.tx.used = s.tx.used ∧ t.tx.head = s.tx.head ∧
      t.tx.tail = s.tx.tail ∧ t.tx.count = s.tx.count := by
  rcases State.armOrIdle_eq_some.mp h with ⟨hc, rfl⟩ | ⟨hc, h⟩
  · refine ⟨hI, ⟨fun _ => ⟨hc, rfl⟩, ?_, ?_⟩, hd, rfl, rfl, rfl, rfl, rfl⟩ <;> simp
  · obtain rfl := (Option.some.inj (hI.arm.symm.trans h))
    refine ⟨hI, ⟨?_, fun _ => ⟨?_, rfl, rfl, rfl, rfl⟩, ?_⟩, ⟨hI.2.2.1, hI.used_le _⟩, rfl, rfl, rfl, rfl, rfl⟩
    · simp
    · show 1 ≤ s.tx.count; omega
    · simp

end Sys2Proof.Machine
end

