-- ==== Sys2Proof/Laws/Flow.lean ====
section
/-! SUPPORT. What was accepted and delivered, event by event, and the queued payload as the oldest block followed
by the others (20_memory.md R49, 41_tx_queue.md R117). -/

namespace Sys2Proof.Machine

/-- The flow of received bytes after more events. -/
theorem State.rxFlow_append {s t : State} {more : List Event} (h : t.events = s.events ++ more) :
    t.rxFlow = more.foldl rxFlowStep s.rxFlow := by simp [State.rxFlow, h]

/-- The flow of transmitted bytes after more events. -/
theorem State.txFlow_append {s t : State} {more : List Event} (h : t.events = s.events ++ more) :
    t.txFlow = more.foldl txFlowStep s.txFlow := by simp [State.txFlow, h]

/-- The arm trace after more events. -/
theorem State.txTrace_append {s t : State} {more : List Event} (h : t.events = s.events ++ more) :
    t.txTrace = s.txTrace ++ more.filterMap Event.arm? := by simp [State.txTrace, h]

/-- What arming or going idle emits. -/
theorem State.armOrIdle_events {s t : State} (h : s.armOrIdle = some t) :
    (s.tx.count = 0 ∧ t.tx.dmaState = .idle ∧ t.events = s.events) ∨
    (s.tx.count ≠ 0 ∧ t.tx.dmaState = .transmitting ∧ t.events = s.events ++
      [.armed ⟨s.tx.tail, s.usedAt s.tx.tail, s.slotBytes s.tx.tail (s.usedAt s.tx.tail)⟩]) := by
  rcases State.armOrIdle_eq_some.mp h with ⟨h1, rfl⟩ | ⟨h1, h2⟩
  · exact .inl ⟨h1, rfl, rfl⟩
  · right; rw [(State.arm_eq_some.mp h2).2]; exact ⟨h1, rfl, rfl⟩

/-- The queued payload depends on the slots, their sizes and the cursors alone. -/
theorem State.queuedFrom_congr {s t : State} (hc : t.cfg = s.cfg) (hr : t.resets = s.resets)
    (hb : t.tx.blk = s.tx.blk) (hu : t.tx.used = s.tx.used) (ht : t.tx.tail = s.tx.tail)
    (hn : t.tx.count = s.tx.count) : t.queuedFrom = s.queuedFrom := by
  funext d
  unfold State.queuedFrom
  rw [hn, State.slotAt_congr hc ht, usedAt_congr hu]
  simp only [List.flatMap_def]
  congr 1
  exact List.map_congr_left fun j _ => slotBytes_congr hc fun i _ => by rw [State.txRead_congr hr hb]

/-- An empty queue holds no payload. -/
theorem State.queuedFrom_of_empty {s : State} (h : s.tx.count = 0) (d : Nat) : s.queuedFrom d = [] := by
  simp [State.queuedFrom, h]

/-- The payload of a non-empty queue: its oldest block, then the rest. -/
theorem State.queuedFrom_zero {s : State} (h : s.tx.count ≠ 0) (ht : s.tx.tail < s.cfg.nb) :
    s.queuedFrom 0 = s.slotBytes s.tx.tail (s.usedAt s.tx.tail) ++ s.queuedFrom 1 := by
  unfold State.queuedFrom
  rw [show s.tx.count - 0 = (s.tx.count - 1) + 1 by omega, List.range_succ_eq_map, List.flatMap_cons,
    List.flatMap_map, Nat.add_zero, State.slotAt_zero ht]
  congr 1
  simp only [List.flatMap_def]
  congr 1
  exact List.map_congr_left fun j _ => by simp [Nat.add_comm]

end Sys2Proof.Machine
end

