-- ==== Sys2Proof/Laws/PerInstr.lean ====
section
/-! SUPPORT. Facts about every command as syntax, one lemma per constructor: the word of a well-formed command lies
where its format puts the opcode, the must-be-zero bits and the operands (30_encoding.md R61 to R65), and it
meets its row of the opcode map (R62). -/

namespace Sys2Proof.Laws

/-- The word of a well-formed command has the command's shape. -/
def EncodeShape.Statement (i : Instr) : Prop := i.wf = true → wordShape (encode i).toNat i

theorem EncodeShape.rxrst : EncodeShape.Statement .rxrst := fun _ => rfl

theorem EncodeShape.rxpush (byte : Byte) : EncodeShape.Statement (.rxpush byte) := by
  intro _
  have := byte.isLt
  simp only [encode, wordShape]
  rw [or_toNat_of_low (k := 8) (by decide) (by simp; omega)]
  simp; omega

theorem EncodeShape.rxpop (len : Nat) : EncodeShape.Statement (.rxpop len) := by
  intro h
  have hn : len ≤ 65535 := by simpa [Instr.wf] using h
  simp only [encode, wordShape]
  rw [or_toNat_of_low (k := 16) (by decide) (by simp; omega)]
  simp; omega

theorem EncodeShape.txrst : EncodeShape.Statement .txrst := fun _ => rfl

theorem EncodeShape.txenq (len : Nat) : EncodeShape.Statement (.txenq len) := by
  intro h
  have hn : len ≤ 65535 := by simpa [Instr.wf] using h
  simp only [encode, wordShape]
  rw [or_toNat_of_low (k := 16) (by decide) (by simp; omega)]
  simp; omega

theorem EncodeShape.txpump : EncodeShape.Statement .txpump := fun _ => rfl

theorem EncodeShape.txdone : EncodeShape.Statement .txdone := fun _ => rfl

theorem EncodeShape.chOpen (pin baud : Nat) : EncodeShape.Statement (.chOpen pin baud) := by
  intro h
  obtain ⟨hp, hb⟩ : pin ≤ 15 ∧ baud ≤ 16777215 := by simpa [Instr.wf] using h
  have hs : ((BitVec.ofNat 4 pin).setWidth 32 <<< 24 : Word).toNat = pin * 2 ^ 24 := by
    simp [BitVec.toNat_shiftLeft, Nat.shiftLeft_eq]; omega
  have h1 : (0x80000000#32 ||| ((BitVec.ofNat 4 pin).setWidth 32 <<< 24)).toNat = 8 * 2 ^ 28 + pin * 2 ^ 24 := by
    rw [or_toNat_of_low (k := 28) (by decide) (by rw [hs]; omega), hs]; rfl
  simp only [encode, wordShape]
  rw [or_toNat_of_low (k := 24) (by rw [h1]; omega) (by simp; omega), h1]
  simp; omega

/-- The word of a command has every fixed bit of its row of the opcode map (30_encoding.md R62). -/
def EncodeMatch.Statement (i : Instr) : Prop := encode i &&& i.maskBits = i.matchBits

theorem EncodeMatch.rxrst : EncodeMatch.Statement .rxrst := rfl

theorem EncodeMatch.rxpush (byte : Byte) : EncodeMatch.Statement (.rxpush byte) := by
  unfold EncodeMatch.Statement encode Instr.maskBits Instr.matchBits
  ext k hk; simp only [BitVec.getElem_and, BitVec.getElem_or]; interval_cases k <;> simp

theorem EncodeMatch.rxpop (len : Nat) : EncodeMatch.Statement (.rxpop len) := by
  unfold EncodeMatch.Statement encode Instr.maskBits Instr.matchBits
  ext k hk; simp only [BitVec.getElem_and, BitVec.getElem_or]; interval_cases k <;> simp

theorem EncodeMatch.txrst : EncodeMatch.Statement .txrst := rfl

theorem EncodeMatch.txenq (len : Nat) : EncodeMatch.Statement (.txenq len) := by
  unfold EncodeMatch.Statement encode Instr.maskBits Instr.matchBits
  ext k hk; simp only [BitVec.getElem_and, BitVec.getElem_or]; interval_cases k <;> simp

theorem EncodeMatch.txpump : EncodeMatch.Statement .txpump := rfl

theorem EncodeMatch.txdone : EncodeMatch.Statement .txdone := rfl

theorem EncodeMatch.chOpen (pin baud : Nat) : EncodeMatch.Statement (.chOpen pin baud) := by
  unfold EncodeMatch.Statement encode Instr.maskBits Instr.matchBits
  ext k hk; simp only [BitVec.getElem_and, BitVec.getElem_or]; interval_cases k <;> simp

end Sys2Proof.Laws
end

