-- ==== Sys2Proof/Laws/Ring.lean ====
section
/-! SUPPORT. The RX ring as a queue of bytes: what storing, dropping and clearing do to its valid window
(10_state.md R18), and that they keep the memories in canonical form. -/

namespace Sys2Proof.Machine

/-- The window depends on the ring and its capacity alone. -/
theorem State.rxWindow_congr {s t : State} (hc : t.cfg = s.cfg) (hr : t.rx = s.rx) :
    t.rxWindow = s.rxWindow := by
  simp [State.rxWindow, State.rxRun, State.rxRead, hc, hr]

/-- Storing a byte appends it to the window (40_rx_ring.md R83). -/
theorem State.rxStore_window {s t : State} {b : Byte} (hI : s.rxInv) (hc : s.rx.count ≠ s.cfg.rc)
    (h : s.rxStore b = some t) : t.rxWindow = s.rxWindow ++ [b] := by
  obtain ⟨c1, c2, c3, c4⟩ := hI
  have hread := fun a => State.rxRead_write s t s.rx.head a b (by rw [(State.rxStore_eq_some.mp h).2])
  obtain ⟨-, ht⟩ := State.rxStore_eq_some.mp h
  have hcount : t.rx.count = s.rx.count + 1 := by rw [ht]
  have htail : t.rx.tail = s.rx.tail := by rw [ht]
  have hcfg : t.cfg = s.cfg := by rw [ht]
  simp only [State.rxWindow, State.rxRun, hcount, htail, hcfg, List.range_succ, List.map_append, List.map_cons,
    List.map_nil]
  congr 1
  · refine List.map_congr_left fun j hj => ?_
    have hj' := List.mem_range.mp hj
    rw [hread, if_neg]
    rw [c4]
    intro he
    have := ring_index_inj (by omega) (by omega) he
    omega
  · rw [hread, if_pos c4.symm]

/-- Dropping the oldest bytes takes them from the front of the window, and they are the run a pop delivers
(40_rx_ring.md R86). -/
theorem State.rxDrop_window {s : State} {n : Nat} (hn : n ≤ s.rx.count) :
    (s.rxDrop n).rxWindow = s.rxWindow.drop n ∧ s.rxRun n = s.rxWindow.take n := by
  constructor
  · refine List.ext_getElem (by simp [State.rxWindow]) fun i h1 h2 => ?_
    simp only [State.rxWindow, State.rxRun, List.getElem_map, List.getElem_range, List.getElem_drop]
    show s.rxRead (((s.rx.tail + n) % s.cfg.rc + i) % s.cfg.rc) = _
    rw [Nat.mod_add_mod, Nat.add_assoc]
  · refine List.ext_getElem (by simp [State.rxWindow]; omega) fun i h1 h2 => ?_
    simp [State.rxWindow, State.rxRun]

/-- A cleared ring reads 0 everywhere (40_rx_ring.md R81). -/
theorem State.rxRead_of_mem_nil {s : State} (h : s.rx.mem = []) (a : Nat) : s.rxRead a = 0#8 := by
  simp [State.rxRead, h, Mem.find, rxUnlisted]

/-! ### The canonical form of the memories -/

theorem State.rxStore_memory {s t : State} {b : Byte} (h : s.rxStore b = some t) (hm : Memory.wf s) :
    Memory.wf t := by
  obtain ⟨hh, rfl⟩ := State.rxStore_eq_some.mp h
  exact ⟨Mem.wf_write b hm.1 hh, hm.2⟩

theorem State.rxClear_memory {s : State} (hm : Memory.wf s) : Memory.wf s.rxClear :=
  ⟨Mem.wf_nil _ _, hm.2⟩

theorem State.txClear_memory {s : State} (hm : Memory.wf s) : Memory.wf s.txClear := hm

theorem State.hardReset_memory (s : State) : Memory.wf s.hardReset := ⟨Mem.wf_nil _ _, Mem.wf_nil _ _⟩

theorem State.reset_memory : Memory.wf State.reset := ⟨Mem.wf_nil _ _, Mem.wf_nil _ _⟩

end Sys2Proof.Machine
end

