-- ==== Sys2Proof/Laws/Step.lean ====
section
/-! SUPPORT. What a step and each command can do: one inversion lemma each, so that no later proof unfolds `step`
or a meaning. -/

namespace Sys2Proof.Machine

/-! ### Taking an input -/

theorem takeFirst_cons_of_can {can : Input → Bool} {x : Input} (h : can x = true) (xs : List Input) :
    takeFirst can (x :: xs) = some (x, xs) := by simp [takeFirst, h]

theorem takeFirst_append {can : Input → Bool} {xs : List Input} (h : ∀ y ∈ xs, can y = false) {x : Input}
    (hx : can x = true) (rest : List Input) : takeFirst can (xs ++ x :: rest) = some (x, xs ++ rest) := by
  induction xs with
  | nil => simp [takeFirst, hx]
  | cons y ys ih =>
    simp only [List.mem_cons, forall_eq_or_imp] at h
    simp [takeFirst, h.1, ih h.2]

theorem takeFirst_eq_none {can : Input → Bool} {xs : List Input} :
    takeFirst can xs = none ↔ ∀ y ∈ xs, can y = false := by
  induction xs with
  | nil => simp [takeFirst]
  | cons y ys ih => cases h : can y <;> simp [takeFirst, h, ih]

theorem takeFirst_can {can : Input → Bool} {xs rest : List Input} {x : Input}
    (h : takeFirst can xs = some (x, rest)) : can x = true := by
  induction xs generalizing rest with
  | nil => simp [takeFirst] at h
  | cons y ys ih =>
    cases hy : can y
    · simp only [takeFirst, hy, Bool.false_eq_true, if_false, Option.map_eq_some_iff] at h
      obtain ⟨⟨x', r'⟩, h1, h2⟩ := h
      simp only [Prod.mk.injEq] at h2
      obtain ⟨rfl, -⟩ := h2
      exact ih h1
    · simp only [takeFirst, hy, if_true, Option.some.injEq, Prod.mk.injEq] at h
      exact h.1 ▸ hy

theorem State.delivers_command (s : State) (r : Request) :
    s.delivers (.command r) = true ↔ (r.port = .rxirq → s.ch.rxIrqEn = true) := by
  cases hp : r.port <;> simp [State.delivers, hp]

/-! ### The step -/

/-- The outcome of a step by the input it takes. -/
theorem step_of_take_none {s : State} (h : takeFirst s.delivers s.inputs = none) : step s = .next s := by
  simp [step, State.fetch, h]

theorem step_of_take_rst {s : State} {rest : List Input}
    (h : takeFirst s.delivers s.inputs = some (.rst, rest)) :
    step s = .next (State.hardReset { s with inputs := rest }) := by
  simp [step, State.fetch, h]

theorem step_of_take_command {s : State} {r : Request} {rest : List Input}
    (h : takeFirst s.delivers s.inputs = some (.command r, rest)) :
    step s = match decode r.port r.word with
      | .invalid why => .refused (.invalidWord why)
      | .command i =>
        if r.port = .dmairq ∧ s.dmaIrqOpen = false then .fault .spuriousCompletion
        else exec i { s with inputs := rest, appIn := r.appIn } := by
  simp only [step, State.fetch, h, State.accept]
  cases decode r.port r.word with
  | invalid why => rfl
  | command i => by_cases hc : r.port = .dmairq ∧ s.dmaIrqOpen = false <;> simp [hc]

/-- Everything a step that answers a next state can do. -/
theorem step_cases {s t : State} (h : step s = .next t) :
    (takeFirst s.delivers s.inputs = none ∧ t = s) ∨
    (∃ rest, takeFirst s.delivers s.inputs = some (.rst, rest) ∧
      t = State.hardReset { s with inputs := rest }) ∨
    (∃ r rest i, takeFirst s.delivers s.inputs = some (.command r, rest) ∧
      decode r.port r.word = .command i ∧ (r.port = .dmairq → s.dmaIrqOpen = true) ∧
      exec i { s with inputs := rest, appIn := r.appIn } = .next t) := by
  cases hx : takeFirst s.delivers s.inputs with
  | none =>
    rw [step_of_take_none hx] at h
    exact .inl ⟨rfl, (Host.Outcome.next.inj h).symm⟩
  | some y =>
    obtain ⟨x, rest⟩ := y
    cases x with
    | rst =>
      rw [step_of_take_rst hx] at h
      exact .inr (.inl ⟨rest, rfl, (Host.Outcome.next.inj h).symm⟩)
    | command r =>
      rw [step_of_take_command hx] at h
      cases hd : decode r.port r.word with
      | invalid why => simp [hd] at h
      | command i =>
        simp only [hd] at h
        split_ifs at h with hc
        exact .inr (.inr ⟨r, rest, i, rfl, hd, fun hp => by simpa [hp] using hc, h⟩)

/-- A property that ignores the inputs, that holds after `rst` and that every command keeps, every step keeps. -/
theorem step_keeps {P : State → Prop}
    (hin : ∀ (s : State) (xs : List Input) (p : List Byte), P s → P { s with inputs := xs, appIn := p })
    (hrst : ∀ s : State, P s → P s.hardReset)
    (hexec : ∀ (i : Instr) (s t : State), P s → exec i s = .next t → P t)
    {s t : State} (hs : P s) (h : step s = .next t) : P t := by
  rcases step_cases h with ⟨-, rfl⟩ | ⟨rest, -, rfl⟩ | ⟨r, rest, i, -, -, -, h⟩
  · exact hs
  · exact hrst _ (hin s rest s.appIn hs)
  · exact hexec i _ t (hin s rest r.appIn hs) h

/-! ### The commands -/

theorem exec_rxrst (s : State) : exec .rxrst s = .next (s.rxClear.answer .rxrst .ok [] []) := rfl

theorem exec_rxpush_full {s : State} (h : s.rx.count = s.cfg.rc) (b : Byte) :
    exec (.rxpush b) s = .next (s.raise (.rxpush b) .overflow) := by
  simp [exec, execRxpush, State.rxFull, h]

theorem exec_rxpush_ok {s : State} (h : s.rx.count ≠ s.cfg.rc) (b : Byte) :
    exec (.rxpush b) s = formed ((s.rxStore b).map fun t => t.answer (.rxpush b) .ok [] []) := by
  simp [exec, execRxpush, State.rxFull, h]

theorem exec_rxpop_short {s : State} {len : Nat} (h : s.rx.count < len) :
    exec (.rxpop len) s = .next (s.raise (.rxpop len) .underflow) := by
  simp [exec, execRxpop, h]

theorem exec_rxpop_ok {s : State} {len : Nat} (h : len ≤ s.rx.count) (hr : 1 ≤ s.cfg.rc) :
    exec (.rxpop len) s = .next ((s.rxDrop len).answer (.rxpop len) .ok [] (s.rxRun len)) := by
  simp [exec, execRxpop, show ¬ s.rx.count < len by omega, show s.cfg.rc ≠ 0 by omega]

theorem exec_txrst (s : State) : exec .txrst s = .next (s.txClear.answer .txrst .ok [] []) := rfl

theorem exec_txenq_zero (s : State) : exec (.txenq 0) s = .next (s.raise (.txenq 0) .invalidArgument) := by
  simp [exec, execTxenq]

theorem exec_txenq_full {s : State} {len : Nat} (hl : 1 ≤ len) (hb : 1 ≤ s.cfg.bs)
    (h : s.cfg.nb < s.tx.count + blocksNeeded s.cfg.bs len) :
    exec (.txenq len) s = .next (s.raise (.txenq len) .queueFull) := by
  simp [exec, execTxenq, show len ≠ 0 by omega, show s.cfg.bs ≠ 0 by omega, h]

theorem exec_txenq_ok {s : State} {len : Nat} (hl : 1 ≤ len) (hb : 1 ≤ s.cfg.bs)
    (h : s.tx.count + blocksNeeded s.cfg.bs len ≤ s.cfg.nb) (hp : len ≤ s.appIn.length) :
    exec (.txenq len) s =
      formed (((State.fillBlocks (blocksNeeded s.cfg.bs len) (s.appIn.take len) s).bind State.pump).map fun t =>
        t.answer (.txenq len) .ok (s.appIn.take len) []) := by
  simp [exec, execTxenq, show len ≠ 0 by omega, show s.cfg.bs ≠ 0 by omega, show ¬ s.appIn.length < len by omega,
    show ¬ s.cfg.nb < s.tx.count + blocksNeeded s.cfg.bs len by omega]

theorem exec_txdone_ok {s : State} (h : s.tx.dmaState = .transmitting) :
    exec .txdone s =
      formed ((State.pump { s with tx := { s.tx with dmaState := .transferDone } }).map fun t =>
        t.answer .txdone .ok [] []) := by
  simp [exec, execTxdone, h]

/-- Everything a command that answers a next state can do: an error that writes nothing, or its effect on the
ring, on the queue, or on both. -/
theorem exec_cases {i : Instr} {s t : State} (h : exec i s = .next t) :
    (∃ st, st ≠ Status.ok ∧ t = s.raise i st ∧
      ((∃ b, i = .rxpush b ∧ st = .overflow ∧ s.rx.count = s.cfg.rc) ∨
       (∃ n, i = .rxpop n ∧ st = .underflow ∧ s.rx.count < n) ∨
       (i = .txenq 0 ∧ st = .invalidArgument) ∨
       (∃ n, i = .txenq n ∧ 1 ≤ n ∧ 1 ≤ s.cfg.bs ∧ st = .queueFull ∧
          s.cfg.nb < s.tx.count + blocksNeeded s.cfg.bs n) ∨
       (∃ p b, i = .chOpen p b ∧ st = .openFailed ∧ s.cfg.pins.getLsbD p = false))) ∨
    (i = .rxrst ∧ t = s.rxClear.answer i .ok [] []) ∨
    (∃ b r, i = .rxpush b ∧ s.rx.count ≠ s.cfg.rc ∧ s.rxStore b = some r ∧ t = r.answer i .ok [] []) ∨
    (∃ n, i = .rxpop n ∧ n ≤ s.rx.count ∧ 1 ≤ s.cfg.rc ∧ t = (s.rxDrop n).answer i .ok [] (s.rxRun n)) ∨
    (i = .txrst ∧ t = s.txClear.answer i .ok [] []) ∨
    (∃ n r u, i = .txenq n ∧ 1 ≤ n ∧ 1 ≤ s.cfg.bs ∧ s.tx.count + blocksNeeded s.cfg.bs n ≤ s.cfg.nb ∧
      n ≤ s.appIn.length ∧ State.fillBlocks (blocksNeeded s.cfg.bs n) (s.appIn.take n) s = some r ∧
      r.pump = some u ∧ t = u.answer i .ok (s.appIn.take n) []) ∨
    (∃ u, i = .txpump ∧ s.pump = some u ∧ t = u.answer i .ok [] []) ∨
    (∃ r u, i = .txdone ∧ s.tx.dmaState = .transmitting ∧
      State.retire { s with tx := { s.tx with dmaState := .transferDone } } = some r ∧
      r.armOrIdle = some u ∧ t = u.answer i .ok [] []) ∨
    (∃ p b, i = .chOpen p b ∧ s.cfg.pins.getLsbD p = true ∧
      t = { (s.txClear.rxClear) with
            ch := ⟨true, true⟩
            events := s.events ++ [.cfgReq b p, .returned ⟨i, .ok, [], []⟩] }) := by
  cases i with
  | rxrst => exact .inr (.inl ⟨rfl, (Host.Outcome.next.inj h).symm⟩)
  | rxpush b =>
    by_cases hf : s.rx.count = s.cfg.rc
    · rw [exec_rxpush_full hf] at h
      exact .inl ⟨_, by decide, (Host.Outcome.next.inj h).symm, .inl ⟨b, rfl, rfl, hf⟩⟩
    · rw [exec_rxpush_ok hf, formed_eq_next, Option.map_eq_some_iff] at h
      obtain ⟨r, h1, h2⟩ := h
      exact .inr (.inr (.inl ⟨b, r, rfl, hf, h1, h2.symm⟩))
  | rxpop n =>
    by_cases hf : s.rx.count < n
    · rw [exec_rxpop_short hf] at h
      exact .inl ⟨_, by decide, (Host.Outcome.next.inj h).symm, .inr (.inl ⟨n, rfl, rfl, hf⟩)⟩
    · by_cases hr : s.cfg.rc = 0
      · simp [exec, execRxpop, hf, hr] at h
      · rw [exec_rxpop_ok (by omega) (by omega)] at h
        exact .inr (.inr (.inr (.inl ⟨n, rfl, by omega, by omega, (Host.Outcome.next.inj h).symm⟩)))
  | txrst => exact .inr (.inr (.inr (.inr (.inl ⟨rfl, (Host.Outcome.next.inj h).symm⟩))))
  | txenq n =>
    rcases Nat.eq_zero_or_pos n with rfl | hn
    · rw [exec_txenq_zero] at h
      exact .inl ⟨_, by decide, (Host.Outcome.next.inj h).symm, .inr (.inr (.inl ⟨rfl, rfl⟩))⟩
    · by_cases hb : s.cfg.bs = 0
      · simp [exec, execTxenq, hb, show n ≠ 0 by omega] at h
      by_cases hq : s.cfg.nb < s.tx.count + blocksNeeded s.cfg.bs n
      · rw [exec_txenq_full hn (by omega) hq] at h
        exact .inl ⟨_, by decide, (Host.Outcome.next.inj h).symm,
          .inr (.inr (.inr (.inl ⟨n, rfl, hn, by omega, rfl, hq⟩)))⟩
      · by_cases hp : s.appIn.length < n
        · simp [exec, execTxenq, hb, show n ≠ 0 by omega, hq, hp] at h
        · rw [exec_txenq_ok hn (by omega) (by omega) (by omega), formed_eq_next, Option.map_eq_some_iff] at h
          obtain ⟨u, h1, h2⟩ := h
          obtain ⟨r, h3, h4⟩ := Option.bind_eq_some_iff.mp h1
          exact .inr (.inr (.inr (.inr (.inr (.inl
            ⟨n, r, u, rfl, hn, by omega, by omega, by omega, h3, h4, h2.symm⟩)))))
  | txpump =>
    rw [exec, execTxpump, formed_eq_next, Option.map_eq_some_iff] at h
    obtain ⟨u, h1, h2⟩ := h
    exact .inr (.inr (.inr (.inr (.inr (.inr (.inl ⟨u, rfl, h1, h2.symm⟩))))))
  | txdone =>
    by_cases hd : s.tx.dmaState = .transmitting
    · rw [exec_txdone_ok hd, formed_eq_next, Option.map_eq_some_iff] at h
      obtain ⟨u, h1, h2⟩ := h
      rcases State.pump_eq_some.mp h1 with ⟨h3, -⟩ | ⟨h3, -⟩ | ⟨-, r, h3, h4⟩
      · cases h3
      · cases h3
      · exact .inr (.inr (.inr (.inr (.inr (.inr (.inr (.inl ⟨r, u, rfl, hd, h3, h4, h2.symm⟩)))))))
    · simp [exec, execTxdone, hd] at h
  | chOpen p b =>
    simp only [exec, execChOpen, pinSupported] at h
    cases hp : s.cfg.pins.getLsbD p
    · simp only [hp, Bool.false_eq_true, if_false, Host.Outcome.next.injEq] at h
      exact .inl ⟨_, by decide, h.symm, .inr (.inr (.inr (.inr ⟨p, b, rfl, rfl, hp⟩)))⟩
    · simp only [hp, if_true, Host.Outcome.next.injEq] at h
      refine .inr (.inr (.inr (.inr (.inr (.inr (.inr (.inr ⟨p, b, rfl, hp, ?_⟩)))))))
      rw [← h]
      simp [State.answer, State.emit, State.rxClear, State.txClear, List.append_assoc]

/-- No command is refused. -/
theorem exec_ne_refused (i : Instr) (s : State) (r : Refusal) : exec i s ≠ .refused r := by
  have hf : ∀ o : Option State, formed o ≠ .refused r := by intro o; cases o <;> simp [formed]
  cases i with
  | rxrst => simp [exec, execRxrst]
  | rxpush b => simp only [exec, execRxpush]; split <;> simp [hf]
  | rxpop n => simp only [exec, execRxpop]; split_ifs <;> simp
  | txrst => simp [exec, execTxrst]
  | txenq n => simp only [exec, execTxenq]; split_ifs <;> simp [hf]
  | txpump => simp [exec, execTxpump, hf]
  | txdone => simp only [exec, execTxdone]; split_ifs <;> simp [hf]
  | chOpen p b => simp only [exec, execChOpen]; split_ifs <;> simp

end Sys2Proof.Machine
end

