-- ==== Sys2Proof/Tests/Slice0.lean ====
section
/-! SUPPORT. The model's own tests: well-formedness with an ill-formed command per check, the words of the spec's
encoding tables, small single steps with the results of 95_test_vectors.md, and for every statement with hypotheses
a concrete state and operands that meet them all (`witness_<statement>`). -/

namespace Sys2Proof.Tests

open Sys2Proof Sys2Proof.Machine

/-! ### Reading an outcome -/

/-- The next state, if there is one. -/
def nextOf : Host.Outcome State Fault Refusal → Option State
  | .next t => some t
  | .fault _ => none
  | .refused _ => none

/-- The fault, if there is one. -/
def faultOf : Host.Outcome State Fault Refusal → Option Fault
  | .next _ => none
  | .fault f => some f
  | .refused _ => none

/-- The refusal, if there is one. -/
def refusalOf : Host.Outcome State Fault Refusal → Option Refusal
  | .next _ => none
  | .fault _ => none
  | .refused r => some r

/-- The outcome is a next state. -/
def completes (o : Host.Outcome State Fault Refusal) : Bool := (nextOf o).isSome

/-- What `completes` tests is the premise the statements write. -/
theorem exists_next_of_completes {o : Host.Outcome State Fault Refusal} (h : completes o = true) :
    ∃ t, o = .next t := by
  cases o with
  | next t => exact ⟨t, rfl⟩
  | fault f => simp [completes, nextOf] at h
  | refused r => simp [completes, nextOf] at h

/-- The events a command adds to an empty list of them. -/
def emitted (o : Host.Outcome State Fault Refusal) : Option (List Event) := (nextOf o).map State.events

/-- A small configuration: two byte slots, two block slots of two bytes, pin 0 supported. -/
def small : Params := { rc := 2, nb := 2, bs := 2, pins := 0x0001#16 }

/-- After `rst` in the small configuration. -/
def fresh : State := State.ofRst small

/-- The reference configuration `T` of 00_scope.md R8 with an RX ring as the vectors write it. -/
def ring (mem : Mem) (h t c : Nat) : State := { State.reset with rx := ⟨mem, h, t, c⟩ }

/-- One block `11 22` in flight from slot 0, slot 1 free. -/
def sendingOne : State :=
  { fresh with
    tx := ⟨[(0, 0x11#8), (1, 0x22#8)], [2, 0], 1, 0, 1, .transmitting⟩
    dma := ⟨true, true, 0, 2⟩
    appIn := [0x33#8]
    events := [.armed ⟨0, 2, [0x11#8, 0x22#8]⟩, .returned ⟨.txenq 2, .ok, [0x11#8, 0x22#8], []⟩] }

/-- Block `11 22` in flight from slot 0 and block `33` waiting in slot 1. -/
def sendingTwo : State :=
  { fresh with
    tx := ⟨[(0, 0x11#8), (1, 0x22#8), (2, 0x33#8)], [2, 1], 0, 0, 2, .transmitting⟩
    dma := ⟨true, true, 0, 2⟩
    events := [.armed ⟨0, 2, [0x11#8, 0x22#8]⟩,
      .returned ⟨.txenq 3, .ok, [0x11#8, 0x22#8, 0x33#8], []⟩] }

/-- A ring that holds the one byte `41`, pushed since the last reset. -/
def holdingOne : State :=
  { fresh with
    rx := ⟨[(0, 0x41#8)], 1, 0, 1⟩
    ch := ⟨true, true⟩
    events := [.returned ⟨.rxpush 0x41#8, .ok, [], []⟩] }

/-- A full ring whose window wraps. -/
def ringFull : State := { fresh with rx := ⟨[(0, 0x42#8), (1, 0x41#8)], 1, 1, 2⟩ }

/-- `s` with a command word next on a port. -/
def given (s : State) (p : Port) (w : Word) : State := { s with inputs := [.command ⟨p, w, []⟩] }

/-! ### Well-formedness: one ill-formed term for each check -/

theorem test_wf_rejects_len_of_rxpop : Instr.wf (.rxpop 65536) = false := by decide
theorem test_wf_rejects_len_of_txenq : Instr.wf (.txenq 65536) = false := by decide
theorem test_wf_rejects_pin : Instr.wf (.chOpen 16 0) = false := by decide
theorem test_wf_rejects_baud : Instr.wf (.chOpen 0 16777216) = false := by decide
theorem test_wf_accepts_the_bounds :
    Instr.wf (.rxpop 65535) = true ∧ Instr.wf (.txenq 65535) = true ∧ Instr.wf (.chOpen 15 16777215) = true := by
  decide
theorem test_params_reject_no_ring : ¬ Params.wf { small with rc := 0 } := by decide
theorem test_params_reject_no_slot : ¬ Params.wf { small with nb := 0 } := by decide
theorem test_params_reject_empty_slot : ¬ Params.wf { small with bs := 0 } := by decide
theorem test_params_reject_large_ring : ¬ Params.wf { small with rc := 65536 } := by decide
theorem test_params_reject_large_queue : ¬ Params.wf { small with nb := 256, bs := 256 } := by decide
theorem test_assemble_refuses_what_cannot_be_encoded :
    assemble (.txenq 65536) = none ∧ assemble (.txenq 97) = some 0x50000061#32 := by decide

/-! ### Decoding: words written out field by field from 30_encoding.md R61, R62 -/

theorem test_decode_rxrst : decode .app (0x1#4 ++ 0#28) = .command .rxrst := by decide
theorem test_decode_rxpush : decode .rxirq (0x2#4 ++ 0#20 ++ 0xFF#8) = .command (.rxpush 0xFF#8) := by decide
theorem test_decode_rxpop : decode .app (0x3#4 ++ 0#12 ++ 0xFFFF#16) = .command (.rxpop 65535) := by decide
theorem test_decode_txrst : decode .app (0x4#4 ++ 0#28) = .command .txrst := by decide
theorem test_decode_txenq : decode .app (0x5#4 ++ 0#12 ++ 0x0061#16) = .command (.txenq 97) := by decide
theorem test_decode_txpump : decode .app (0x6#4 ++ 0#28) = .command .txpump := by decide
theorem test_decode_txdone : decode .dmairq (0x7#4 ++ 0#28) = .command .txdone := by decide
theorem test_decode_open : decode .app (0x8#4 ++ 0xF#4 ++ 0x002580#24) = .command (.chOpen 15 9600) := by decide

/-- 95_test_vectors.md E14 to E16. -/
theorem test_decode_rejects_unassigned_opcodes :
    decode .app 0x00000000#32 = .invalid .unassignedOpcode ∧
    decode .rxirq 0x90000000#32 = .invalid .unassignedOpcode ∧
    decode .dmairq 0xFFFFFFFF#32 = .invalid .unassignedOpcode := by decide

/-- 95_test_vectors.md E17 to E20. -/
theorem test_decode_rejects_must_be_zero_bits :
    decode .app 0x10000001#32 = .invalid .mustBeZero ∧ decode .rxirq 0x20000100#32 = .invalid .mustBeZero ∧
    decode .app 0x30010000#32 = .invalid .mustBeZero ∧ decode .dmairq 0x71000000#32 = .invalid .mustBeZero := by
  decide

/-- 95_test_vectors.md E21 to E24. -/
theorem test_decode_rejects_the_wrong_port :
    decode .app 0x20000041#32 = .invalid .wrongPort ∧ decode .app 0x70000000#32 = .invalid .wrongPort ∧
    decode .rxirq 0x30000001#32 = .invalid .wrongPort ∧ decode .dmairq 0x50000001#32 = .invalid .wrongPort := by
  decide

/-- 95_test_vectors.md, after E24: the pseudo-commands' words. -/
theorem test_encode_pseudo_commands :
    encode (pseudoSend 2) = 0x50000002#32 ∧ encode (pseudoRecv 2) = 0x30000002#32 ∧
    encode (pseudoIrqrx 0x41#8) = 0x20000041#32 ∧ encode pseudoIrqdma = 0x70000000#32 ∧
    encode (pseudoChopen 0 115200) = 0x8001C200#32 := by decide

theorem test_table_word_decodes :
    decodeTableWord 32 0x20000041 = some (.rxpush 0x41#8) ∧ decodeTableWord 32 0x20000100 = none := by decide

/-- 60_exceptions.md R135 and 10_state.md R20: the numeric codes. -/
theorem test_codes :
    [Status.ok, .overflow, .underflow, .queueFull, .invalidArgument, .openFailed].map Status.code =
      [0, 1, 2, 3, 4, 5] ∧
    [DmaState.idle, .transmitting, .transferDone].map DmaState.code = [0, 1, 2] := by decide

/-! ### Steps -/

/-- 95_test_vectors.md V8: `RXRST` discards. -/
theorem test_rxrst :
    (nextOf (exec .rxrst (ring [(0, 0xB1#8), (1, 0xB2#8), (2, 0xA3#8), (3, 0xA4#8)] 2 3 3))).map State.rx =
      some ⟨[], 0, 0, 0⟩ := by decide

/-- 95_test_vectors.md V1, line 4: the head wraps. -/
theorem test_rxpush_wraps :
    (nextOf (exec (.rxpush 0xA4#8) (ring [(0, 0xA1#8), (1, 0xA2#8), (2, 0xA3#8)] 3 0 3))).map State.rx =
      some ⟨[(0, 0xA1#8), (1, 0xA2#8), (2, 0xA3#8), (3, 0xA4#8)], 0, 0, 4⟩ := by decide

/-- 95_test_vectors.md S2: a full ring rejects the newest byte. -/
theorem test_rxpush_overflow :
    let s := ring [(0, 0xA1#8), (1, 0xA2#8), (2, 0xA3#8), (3, 0xA4#8)] 0 0 4
    (nextOf (exec (.rxpush 0xA5#8) s)).map State.rx = some s.rx ∧
    emitted (exec (.rxpush 0xA5#8) s) = some [.returned ⟨.rxpush 0xA5#8, .overflow, [], []⟩] := by decide

/-- 95_test_vectors.md V2, line 9: a pop in two copies. -/
theorem test_rxpop_wraps :
    let s := ring [(0, 0xB1#8), (1, 0xB2#8), (2, 0xA3#8), (3, 0xA4#8)] 2 3 3
    (nextOf (exec (.rxpop 3) s)).map State.rx = some ⟨s.rx.mem, 2, 2, 0⟩ ∧
    emitted (exec (.rxpop 3) s) =
      some [.returned ⟨.rxpop 3, .ok, [], [0xA4#8, 0xB1#8, 0xB2#8]⟩] := by decide

/-- 95_test_vectors.md S3: no partial copy. -/
theorem test_rxpop_underflow :
    let s := ring [(0, 0x11#8), (1, 0x22#8)] 2 0 2
    (nextOf (exec (.rxpop 3) s)).map State.rx = some s.rx ∧
    emitted (exec (.rxpop 3) s) = some [.returned ⟨.rxpop 3, .underflow, [], []⟩] := by decide

/-- 41_tx_queue.md R96, with the block in flight abandoned (95_test_vectors.md V18). -/
theorem test_txrst :
    (nextOf (exec .txrst sendingTwo)).map (fun t => (t.tx, t.dma)) =
      some (⟨sendingTwo.tx.blk, [0, 0], 0, 0, 0, .idle⟩, ⟨false, true, 0, 2⟩) := by decide

/-- 95_test_vectors.md V11: one byte. -/
theorem test_txenq_one_byte :
    (nextOf (exec (.txenq 1) { State.reset with appIn := [0x5A#8] })).map (fun t => (t.tx, t.dma, t.txTrace)) =
      some (⟨[(0, 0x5A#8)], [1, 0, 0, 0], 1, 0, 1, .transmitting⟩, ⟨true, true, 0, 1⟩,
        [⟨0, 1, [0x5A#8]⟩]) := by decide

/-- 95_test_vectors.md V13: `QueueFull` counts slots, not bytes. -/
theorem test_txenq_queue_full :
    emitted (exec (.txenq 3) { sendingOne with events := [] }) =
      some [.returned ⟨.txenq 3, .queueFull, [], []⟩] := by decide

/-- 95_test_vectors.md V15(c): `TXPUMP` does not re-arm the slot that `dma.blk` and `dma.len` still name. -/
theorem test_txpump_idle :
    let s := { State.reset with dma := ⟨false, true, 0, 32⟩ }
    (nextOf (exec .txpump s)).map (fun t => (t.tx, t.dma, t.txTrace)) = some (s.tx, s.dma, []) := by decide

/-- 95_test_vectors.md S8: `TXPUMP` in `Transmitting`. -/
theorem test_txpump_transmitting :
    (nextOf (exec .txpump sendingTwo)).map (fun t => (t.tx, t.dma, t.txTrace)) =
      some (sendingTwo.tx, sendingTwo.dma, sendingTwo.txTrace) := by decide

/-- 95_test_vectors.md S7, line 4 in small: the next block is armed. -/
theorem test_txdone_arms_the_next :
    (nextOf (exec .txdone { sendingTwo with events := [] })).map (fun t => (t.tx, t.dma, t.events)) =
      some (⟨sendingTwo.tx.blk, [0, 1], 0, 1, 1, .transmitting⟩, ⟨true, true, 1, 1⟩,
        [.dmaClr, .armed ⟨1, 1, [0x33#8]⟩, .returned ⟨.txdone, .ok, [], []⟩]) := by decide

/-- 95_test_vectors.md V11 and V16: the queue drains, and a completion after that faults. -/
theorem test_txdone_drains :
    (nextOf (exec .txdone sendingOne)).map (fun t => (t.tx, t.dma)) =
      some (⟨sendingOne.tx.blk, [0, 0], 1, 1, 0, .idle⟩, ⟨false, true, 0, 2⟩) ∧
    faultOf (exec .txdone State.reset) = some .spuriousCompletion := by decide

/-- 95_test_vectors.md V22 in small: a re-open discards, and keeps `dma.tcie`, `dma.blk`, `dma.len`. -/
theorem test_open_discards :
    (nextOf (exec (.chOpen 0 115200) { sendingTwo with rx := ringFull.rx, events := [] })).map
        (fun t => (t.rx, t.tx, t.dma, t.ch)) =
      some (⟨[], 0, 0, 0⟩, ⟨sendingTwo.tx.blk, [0, 0], 0, 0, 0, .idle⟩, ⟨false, true, 0, 2⟩, ⟨true, true⟩) ∧
    emitted (exec (.chOpen 0 115200) State.reset) =
      some [.cfgReq 115200 0, .returned ⟨.chOpen 0 115200, .ok, [], []⟩] := by decide

/-- 95_test_vectors.md V21: an unsupported pin. -/
theorem test_open_fails :
    (nextOf (exec (.chOpen 15 9600) State.reset)).map (fun t => (t.ch, t.events)) =
      some (⟨false, false⟩, [.returned ⟨.chOpen 15 9600, .openFailed, [], []⟩]) := by decide

/-- 10_state.md R34: `rst` in the middle of a transfer. -/
theorem test_hard_reset :
    (nextOf (step { sendingTwo with inputs := [.rst] })).map (fun t => (t.tx, t.dma, t.inputs)) =
      some (⟨[], [0, 0], 0, 0, 0, .idle⟩, ⟨false, false, 0, 0⟩, []) := by decide

/-- 30_encoding.md R67: an invalid word is refused. -/
theorem test_invalid_word_is_refused :
    refusalOf (step (given fresh .app 0x10000001#32)) = some (.invalidWord .mustBeZero) := by decide

/-- The word presented next is the one the step executes, on each port. -/
theorem test_fetch_word :
    emitted (step (State.reset.withFetchWord 32 0x40000000)) = some [.returned ⟨.txrst, .ok, [], []⟩] ∧
    emitted (step (State.reset.withFetchWord 32 0x20000041)) = some [.returned ⟨.rxpush 0x41#8, .ok, [], []⟩] ∧
    emitted (step (State.reset.withFetchWord 32 0x50000001)) =
      some [.armed ⟨0, 1, [0x00#8]⟩, .returned ⟨.txenq 1, .ok, [0x00#8], []⟩] := by decide

/-! ### Witnesses: for each statement with hypotheses, a state and operands that meet them all -/

/-- The states above meet the invariant; the inputs do not matter to it. -/
theorem reset_inv : State.reset.Inv := by decide
theorem fresh_inv : fresh.Inv := by decide
theorem sendingOne_inv : sendingOne.Inv := by decide
theorem sendingTwo_inv : sendingTwo.Inv := by decide
theorem holdingOne_inv : holdingOne.Inv := by decide
theorem ringFull_inv : ringFull.Inv := by decide

/-- The operands at the ends of their ranges. -/
theorem witness_DecodeOfEncodeIsTheCommand :
    Instr.wf (.rxpush 0xFF#8) = true ∧ Instr.wf (.rxpop 0) = true ∧ Instr.wf (.txenq 65535) = true ∧
    Instr.wf (.chOpen 15 16777215) = true := by decide

theorem witness_EncodeOfDecodeIsTheWord : decode .app 0x8FFFFFFF#32 = .command (.chOpen 15 16777215) := by decide

/-- A word of each row, and the last word before each row's mask stops matching. -/
theorem witness_WordIsCommandIffMaskMatches :
    0x10000000#32 &&& 0xFFFFFFFF#32 = 0x10000000#32 ∧ 0x200000FF#32 &&& 0xFFFFFF00#32 = 0x20000000#32 ∧
    0x3000FFFF#32 &&& 0xFFFF0000#32 = 0x30000000#32 ∧ 0x40000000#32 &&& 0xFFFFFFFF#32 = 0x40000000#32 ∧
    0x5000FFFF#32 &&& 0xFFFF0000#32 = 0x50000000#32 ∧ 0x60000000#32 &&& 0xFFFFFFFF#32 = 0x60000000#32 ∧
    0x70000000#32 &&& 0xFFFFFFFF#32 = 0x70000000#32 ∧ 0x8FFFFFFF#32 &&& 0xF0000000#32 = 0x80000000#32 := by decide

theorem witness_OperandsAreSlicesOfTheWord :
    decodeWord 0x200000FF#32 = .command (.rxpush 0xFF#8) ∧ decodeWord 0x3000FFFF#32 = .command (.rxpop 65535) ∧
    decodeWord 0x50000000#32 = .command (.txenq 0) ∧
    decodeWord 0x8FFFFFFF#32 = .command (.chOpen 15 16777215) := by decide

/-- A taken word of each refused kind, and a valid one. -/
theorem witness_InvalidWordsAndOnlyTheyAreRefused :
    ∀ w ∈ [0x00000000#32, 0x90000000#32, 0x10000001#32, 0x20000100#32, 0x30010000#32, 0x70000000#32, 0x60000000#32],
      takeFirst (given fresh .app w).delivers (given fresh .app w).inputs = some (.command ⟨.app, w, []⟩, []) :=
  fun _ _ => rfl

/-- One command of each port, with the enable bits of its port. -/
theorem witness_StepExecutesTheTakenCommand :
    ((given fresh .app 0x50000001#32).inputs = [.command ⟨.app, 0x50000001#32, []⟩] ∧
      decode .app 0x50000001#32 = .command (.txenq 1)) ∧
    ((given holdingOne .rxirq 0x20000041#32).inputs = [.command ⟨.rxirq, 0x20000041#32, []⟩] ∧
      decode .rxirq 0x20000041#32 = .command (.rxpush 0x41#8) ∧
      (given holdingOne .rxirq 0x20000041#32).ch.rxIrqEn = true) ∧
    ((given sendingOne .dmairq 0x70000000#32).inputs = [.command ⟨.dmairq, 0x70000000#32, []⟩] ∧
      decode .dmairq 0x70000000#32 = .command .txdone ∧
      (given sendingOne .dmairq 0x70000000#32).dma.tcie = true ∧
      (given sendingOne .dmairq 0x70000000#32).dma.en = true) := by decide

/-- No input at all, and a byte that waits. -/
theorem witness_NothingDeliverableChangesNothing :
    ((∀ x ∈ fresh.inputs, ∃ r, x = .command r ∧ r.port = .rxirq) ∧ fresh.ch.rxIrqEn = false) ∧
    ((∀ x ∈ (given fresh .rxirq 0x20000041#32).inputs, ∃ r, x = .command r ∧ r.port = .rxirq) ∧
      (given fresh .rxirq 0x20000041#32).ch.rxIrqEn = false) := by
  refine ⟨⟨fun x hx => (List.not_mem_nil hx).elim, rfl⟩, fun x hx => ⟨⟨.rxirq, 0x20000041#32, []⟩, ?_, rfl⟩, rfl⟩
  exact List.mem_singleton.mp hx

/-- A byte that waits, then the reset input; and nothing that waits, then an application command. -/
theorem witness_DisabledReceiveInterruptHasNoStep :
    (fresh.ch.rxIrqEn = false ∧
      ({ fresh with inputs := [.command ⟨.rxirq, 0x20000041#32, []⟩, .rst] } : State).inputs =
        [.command ⟨.rxirq, 0x20000041#32, []⟩] ++ .rst :: [] ∧
      (∀ y ∈ [Input.command ⟨.rxirq, 0x20000041#32, []⟩], ∃ r, y = .command r ∧ r.port = .rxirq) ∧
      (∀ r, Input.rst = .command r → r.port ≠ .rxirq)) ∧
    (∀ r, Input.command ⟨.app, 0x30000001#32, []⟩ = .command r → r.port ≠ .rxirq) := by
  refine ⟨⟨rfl, rfl, fun y hy => ⟨_, List.mem_singleton.mp hy, rfl⟩, fun r h => by cases h⟩, fun r h => ?_⟩
  cases h; decide

/-- Each of the three reasons for the fault, and a state of the invariant on either side. -/
theorem witness_CompletionIsAdmittedExactlyInTransmitting :
    (given fresh .dmairq 0x70000000#32).dma.tcie = false ∧
    (given { fresh with dma := ⟨false, true, 0, 2⟩ } .dmairq 0x70000000#32).dma.en = false ∧
    (given { fresh with dma := ⟨true, true, 0, 2⟩ } .dmairq 0x70000000#32).tx.dmaState ≠ .transmitting ∧
    (given fresh .dmairq 0x70000000#32).Inv ∧ (given sendingOne .dmairq 0x70000000#32).Inv ∧
    completes (step (given sendingOne .dmairq 0x70000000#32)) = true :=
  ⟨by decide, by decide, by decide, fresh_inv, sendingOne_inv, by decide⟩

theorem witness_HardResetGivesResetValues :
    ({ sendingTwo with inputs := [.rst, .rst] } : State).inputs = .rst :: [.rst] ∧
    (⟨.rxirq, 0x20000041#32, []⟩ : Request).port = .rxirq := by decide

/-- The least and the largest configurations of 00_scope.md R7. -/
theorem witness_ResetMeetsTheInvariants :
    Params.wf { rc := 1, nb := 1, bs := 1, pins := 0 } ∧
    Params.wf { rc := 65535, nb := 1, bs := 65535, pins := 0 } ∧
    Params.wf { rc := 1, nb := 65535, bs := 1, pins := 0 } ∧ Params.wf Params.reference := by decide

/-- At rest, in flight with a block waiting, and with an input of each kind. -/
theorem witness_StepKeepsTheInvariant :
    (fresh.Inv ∧ completes (step fresh) = true) ∧
    ((given sendingTwo .dmairq 0x70000000#32).Inv ∧
      completes (step (given sendingTwo .dmairq 0x70000000#32)) = true) ∧
    ((given ringFull .app 0x30000002#32).Inv ∧ completes (step (given ringFull .app 0x30000002#32)) = true) ∧
    (({ sendingOne with inputs := [.rst] } : State).Inv ∧
      completes (step { sendingOne with inputs := [.rst] }) = true) :=
  ⟨⟨fresh_inv, by decide⟩, ⟨sendingTwo_inv, by decide⟩, ⟨ringFull_inv, by decide⟩, ⟨sendingOne_inv, by decide⟩⟩

theorem witness_StepKeepsTheConfiguration : completes (step (given fresh .app 0x8001C200#32)) = true := by decide

theorem witness_NoOutOfRangeAccessIsFormed : sendingTwo.Inv ∧ (given fresh .app 0x60000000#32).Inv :=
  ⟨sendingTwo_inv, fresh_inv⟩

/-- Each duty met: the payload supplied, and a completion in `Transmitting`. -/
theorem witness_DutifulEnvironmentNeverStopsTheBlock :
    (sendingOne.Inv ∧ sendingOne.dutiful (.txenq 1) = true) ∧ (sendingTwo.Inv ∧ sendingTwo.dutiful .txdone = true) ∧
    (fresh.Inv ∧ fresh.dutiful (.rxpop 65535) = true) :=
  ⟨⟨sendingOne_inv, by decide⟩, ⟨sendingTwo_inv, by decide⟩, ⟨fresh_inv, by decide⟩⟩

theorem witness_RxrstClearsTheRing : 0 < fresh.cfg.rc := by decide

/-- A full ring, and the last slot free. -/
theorem witness_RxpushStoresOrOverflows :
    ringFull.rx.count = ringFull.cfg.rc ∧
    (holdingOne.rx.count ≠ holdingOne.cfg.rc ∧ holdingOne.rx.head < holdingOne.cfg.rc) := by decide

/-- One more byte than there is, exactly as many, and none. -/
theorem witness_RxpopDeliversOrUnderflows :
    65535 ≤ 65535 ∧ holdingOne.rx.count < 2 ∧
    (1 ≤ holdingOne.rx.count ∧ 1 ≤ holdingOne.cfg.rc ∧ holdingOne.rx.count ≤ holdingOne.cfg.rc) ∧
    (0 ≤ fresh.rx.count ∧ 1 ≤ fresh.cfg.rc) := by decide

/-- A window that wraps: a pop in two copies. -/
theorem witness_RxpopIsOneOrTwoContiguousCopies : ringFull.rxInv ∧ 2 ≤ ringFull.rx.count := by decide

theorem witness_RxpopBoundaryLengths :
    (fresh.rxInv ∧ fresh.cfg.rc < 3) ∧ (ringFull.rxInv ∧ ringFull.rx.count = ringFull.cfg.rc) := by decide

/-- As many bytes as the ring holds, and none. -/
theorem witness_PopReturnsTheBytesInTheOrderPushed :
    (fresh.rxInv ∧ fresh.rx.count = 0 ∧ [0x41#8, 0x42#8].length ≤ fresh.cfg.rc) ∧
    ([] : List Byte).length ≤ fresh.cfg.rc := by decide

/-- Commands of each kind that complete, from states of the ring's invariant. -/
theorem witness_RingIsABoundedFifo :
    (ringFull.rxInv ∧ completes (exec (.rxpush 0x43#8) ringFull) = true) ∧
    (holdingOne.rxInv ∧ completes (exec (.rxpop 1) holdingOne) = true) ∧
    (holdingOne.rxInv ∧ completes (exec (.chOpen 0 0) holdingOne) = true) ∧
    (sendingTwo.rxInv ∧ completes (exec .txdone sendingTwo) = true) := by decide

/-- 95_test_vectors.md P4 in small: a pop of one byte, and of the whole ring. -/
theorem witness_OrderDecidesThePushOnAFullRing :
    ringFull.rxInv ∧ ringFull.rx.count = ringFull.cfg.rc ∧ 1 ≤ 1 ∧ 1 ≤ ringFull.rx.count ∧
    2 ≤ ringFull.rx.count := by decide

theorem witness_StepKeepsTheReceiveOrder :
    (given holdingOne .app 0x30000001#32).Inv ∧ (given holdingOne .app 0x30000001#32).rxFlowInv ∧
    completes (step (given holdingOne .app 0x30000001#32)) = true := by decide

/-- An RX command that changes the ring, another state with the same ring, and a TX command after it. -/
theorem witness_RxCommandsTouchOnlyTheRing :
    Instr.isRx (.rxpush 0x42#8) = true ∧ completes (exec (.rxpush 0x42#8) holdingOne) = true ∧
    (({ sendingOne with rx := holdingOne.rx } : State).cfg = holdingOne.cfg ∧
      ({ sendingOne with rx := holdingOne.rx } : State).rx = holdingOne.rx) ∧
    Instr.isTx .txdone = true ∧
    ((nextOf (exec (.rxpush 0x42#8) { sendingTwo with rx := holdingOne.rx })).map fun t =>
      completes (exec .txdone t)) = some true := by decide

/-- Cursors equal on an empty and on a full ring and queue. -/
theorem witness_EqualCursorsMeanFullOrEmpty :
    (fresh.rxInv ∧ fresh.txInv) ∧ (ringFull.rxInv ∧ ringFull.rx.head = ringFull.rx.tail) ∧
    (sendingTwo.txInv ∧ sendingTwo.tx.head = sendingTwo.tx.tail) := by decide

theorem witness_TxCommandsTouchOnlyTheQueue :
    Instr.isTx (.txenq 1) = true ∧ completes (exec (.txenq 1) sendingOne) = true := by decide

theorem witness_TxrstClearsTheQueue : 0 < fresh.cfg.nb := by decide

theorem witness_ZeroLengthSendIsRejected : sendingTwo.txInv := by decide

/-- Too large for the free slots, too large for the queue, and a full queue. -/
theorem witness_QueueFullExactlyWhenSlotsLack :
    (1 ≤ 3 ∧ 1 ≤ sendingOne.cfg.bs ∧
      sendingOne.tx.count + (3 + sendingOne.cfg.bs - 1) / sendingOne.cfg.bs > sendingOne.cfg.nb) ∧
    5 > fresh.cfg.nb * fresh.cfg.bs ∧ sendingTwo.tx.count = sendingTwo.cfg.nb := by decide

/-- From `Idle` with a request that fills the queue, and from `Transmitting`. -/
theorem witness_TxenqFillsSlotsAndPumps :
    (let s := { fresh with appIn := [0x01#8, 0x02#8, 0x03#8] }
     s.Inv ∧ 1 ≤ 3 ∧ s.tx.count + (3 + s.cfg.bs - 1) / s.cfg.bs ≤ s.cfg.nb ∧ 3 ≤ s.appIn.length ∧
      s.tx.dmaState = .idle) ∧
    (sendingOne.Inv ∧ 1 ≤ 1 ∧
      sendingOne.tx.count + (1 + sendingOne.cfg.bs - 1) / sendingOne.cfg.bs ≤ sendingOne.cfg.nb ∧
      1 ≤ sendingOne.appIn.length ∧ sendingOne.tx.dmaState = .transmitting) :=
  ⟨⟨fresh_inv, by decide⟩, ⟨sendingOne_inv, by decide⟩⟩

/-- An address the request leaves alone, a slot it leaves alone, and a queued slot. -/
theorem witness_TxenqWritesOnlyFreeSlots :
    (sendingOne.Inv ∧ completes (exec (.txenq 1) sendingOne) = true) ∧
    (∀ p < 1, 3 ≠ (sendingOne.tx.head + p / sendingOne.cfg.bs) % sendingOne.cfg.nb * sendingOne.cfg.bs +
      p % sendingOne.cfg.bs) ∧
    (0 < sendingOne.cfg.nb ∧
      ∀ j < (1 + sendingOne.cfg.bs - 1) / sendingOne.cfg.bs, 0 ≠ (sendingOne.tx.head + j) % sendingOne.cfg.nb) ∧
    (0 < sendingOne.tx.count ∧ 1 < sendingOne.cfg.bs) :=
  ⟨⟨sendingOne_inv, by decide⟩, by decide, by decide, by decide⟩

theorem witness_PumpDoesNothingWhileTransmitting : sendingTwo.tx.dmaState = .transmitting := by decide

/-- Both states of rest, and an arm caused by each of the two commands. -/
theorem witness_TxpumpIsInertBetweenCommands :
    fresh.restInv ∧ sendingTwo.restInv ∧
    (nextOf (exec (.txenq 1) { fresh with appIn := [0x5A#8] })).map (fun t => t.txTrace) ≠ some fresh.txTrace ∧
    (nextOf (exec .txdone sendingTwo)).map (fun t => t.txTrace) ≠ some sendingTwo.txTrace := by decide

/-- A state for each of the five rows; those of `TransferDone` are inside `TXDONE`. -/
theorem witness_PumpFollowsTheStateMachine :
    (sendingTwo.tx.tail < sendingTwo.cfg.nb ∧ sendingTwo.tx.used.length = sendingTwo.cfg.nb ∧
      ∀ b, sendingTwo.usedAt b ≤ sendingTwo.cfg.bs) ∧
    (let s := { sendingTwo with tx := { sendingTwo.tx with dmaState := .idle } }
     s.tx.dmaState = .idle ∧ s.tx.count > 0) ∧
    (fresh.tx.dmaState = .idle ∧ fresh.tx.count = 0) ∧ sendingTwo.tx.dmaState = .transmitting ∧
    (let s := { sendingTwo with tx := { sendingTwo.tx with dmaState := .transferDone } }
     s.tx.dmaState = .transferDone ∧ s.tx.count > 1) ∧
    (let s := { sendingOne with tx := { sendingOne.tx with dmaState := .transferDone } }
     s.tx.dmaState = .transferDone ∧ s.tx.count = 1) := by
  refine ⟨⟨by decide, by decide, fun b => ?_⟩, by decide, by decide, by decide, by decide, by decide⟩
  match b with
  | 0 => decide
  | 1 => decide
  | _ + 2 => exact Nat.zero_le _

/-- Outside `Transmitting`; more blocks to send; the last block. -/
theorem witness_TxdoneRetiresThenArmsOrIdles :
    fresh.tx.dmaState ≠ .transmitting ∧
    (sendingTwo.Inv ∧ sendingTwo.tx.dmaState = .transmitting ∧ sendingTwo.tx.count > 1) ∧
    (sendingOne.Inv ∧ sendingOne.tx.dmaState = .transmitting ∧ sendingOne.tx.count = 1) :=
  ⟨by decide, ⟨sendingTwo_inv, by decide⟩, ⟨sendingOne_inv, by decide⟩⟩

/-- The last completion drains the queue; the first does not. -/
theorem witness_StepKeepsTheTransmitOrder :
    (let s := given sendingTwo .dmairq 0x70000000#32
     s.Inv ∧ s.txFlowInv ∧ completes (step s) = true) ∧
    (let s := given sendingOne .dmairq 0x70000000#32
     s.Inv ∧ s.txFlowInv ∧ (nextOf (step s)).map (fun t => t.tx.count) = some 0) :=
  ⟨⟨sendingTwo_inv, by decide, by decide⟩, ⟨sendingOne_inv, by decide, by decide⟩⟩

/-- A request that fills the idle queue. -/
theorem witness_DrainingDeliversTheRequestAndStops :
    let s := { fresh with appIn := [0x01#8, 0x02#8, 0x03#8] }
    s.Inv ∧ s.tx.dmaState = .idle ∧ 1 ≤ 3 ∧ (3 + s.cfg.bs - 1) / s.cfg.bs ≤ s.cfg.nb ∧ 3 ≤ s.appIn.length :=
  ⟨fresh_inv, by decide⟩

/-- A completion that arms a waiting block, and an enqueue. -/
theorem witness_FreeBytesAreNeverSent :
    (sendingTwo.Inv ∧ sendingTwo.writtenInv ∧ completes (exec .txdone sendingTwo) = true) ∧
    (sendingOne.Inv ∧ sendingOne.writtenInv ∧ completes (exec (.txenq 1) sendingOne) = true) :=
  ⟨⟨sendingTwo_inv, by decide, by decide⟩, ⟨sendingOne_inv, by decide, by decide⟩⟩

theorem witness_StepKeepsTheBytesInFlight :
    (given sendingTwo .app 0x60000000#32).Inv ∧ (given sendingTwo .app 0x60000000#32).inFlightInv ∧
    completes (step (given sendingTwo .app 0x60000000#32)) = true := by decide

theorem witness_StepKeepsQueuedBytesWritten :
    (given sendingTwo .dmairq 0x70000000#32).Inv ∧ (given sendingTwo .dmairq 0x70000000#32).writtenInv ∧
    completes (step (given sendingTwo .dmairq 0x70000000#32)) = true := by decide

/-- Both resets, with a block in flight. -/
theorem witness_CompletionAfterAResetFaults :
    completes (exec .txrst sendingTwo) = true ∧
    (sendingTwo.cfg.pins.getLsbD 0 = true ∧ completes (exec (.chOpen 0 115200) sendingTwo) = true) := by decide

/-- 95_test_vectors.md P5(b) in small: the enqueue and the completion both succeed. -/
theorem witness_EnqueueAndCompletionCommute :
    sendingOne.Inv ∧ sendingOne.tx.dmaState = .transmitting ∧ 1 ≤ 1 ∧ 1 ≤ sendingOne.appIn.length ∧
    sendingOne.tx.count + (1 + sendingOne.cfg.bs - 1) / sendingOne.cfg.bs ≤ sendingOne.cfg.nb := by decide

/-- An unsupported pin, a supported one, and the operands at their largest. -/
theorem witness_OpenResetsBothEnginesOrFails :
    (15 ≤ 15 ∧ 16777215 ≤ 16777215) ∧ fresh.cfg.pins.getLsbD 15 = false ∧ fresh.cfg.pins.getLsbD 0 = true ∧
    0 < fresh.cfg.rc ∧ 0 < fresh.cfg.nb := by decide

theorem witness_BaudHasNoEffect :
    (completes (exec (.chOpen 0 115200) fresh) = true ∧ fresh.cfg.pins.getLsbD 0 = true) ∧
    completes (exec (.chOpen 15 115200) fresh) = true := by decide

/-- A command that fails, from a state that completes it. -/
theorem witness_FailedCommandsWriteNothing :
    (nextOf (exec (.rxpop 3) fresh)).map (fun t => t.events.getLast?) =
      some (some (.returned ⟨.rxpop 3, .underflow, [], []⟩)) ∧ Status.underflow ≠ .ok := by decide

theorem witness_EveryCommandReturnsOneOfItsStatuses :
    completes (exec (.txenq 1) sendingOne) = true ∧ completes (exec .txdone sendingTwo) = true := by decide

theorem witness_PastOutputsHaveNoInfluence : completes (exec .txdone sendingTwo) = true := by decide

/-- Each register changed by a command that completes, from a state at rest. -/
theorem witness_CursorsHaveTheirOwnWriters :
    fresh.restInv ∧ sendingTwo.restInv ∧
    ((nextOf (exec (.rxpush 0x41#8) fresh)).map fun t => (t.rx.head, t.rx.count)) = some (1, 1) ∧
    ((nextOf (exec (.rxpop 1) holdingOne)).map fun t => t.rx.tail) = some 1 ∧
    ((nextOf (exec (.txenq 1) { fresh with appIn := [0x5A#8] })).map fun t =>
      (t.tx.head, t.tx.count, t.tx.dmaState)) = some (1, 1, .transmitting) ∧
    ((nextOf (exec .txdone sendingTwo)).map fun t => t.tx.tail) = some 1 := by decide

/-- The bits set, and each of them changed by the command that may. -/
theorem witness_EnableBitsAreOnlySet :
    (holdingOne.ch.rxIrqEn = true ∧ holdingOne.ch.clkEn = true ∧ completes (exec .rxrst holdingOne) = true) ∧
    (sendingTwo.dma.tcie = true ∧ completes (exec .txrst sendingTwo) = true) ∧
    ((nextOf (exec (.chOpen 0 0) fresh)).map fun t => t.ch) ≠ some fresh.ch ∧
    ((nextOf (exec (.txenq 1) { fresh with appIn := [0x5A#8] })).map fun t => t.dma.tcie) ≠
      some fresh.dma.tcie := by decide

/-- In flight, and a completion that arms the next block. -/
theorem witness_AtMostOneBlockIsInFlight :
    sendingTwo.tx.dmaState = .transmitting ∧ completes (exec .txdone sendingTwo) = true ∧
    (nextOf (exec .txdone sendingTwo)).map (fun t => t.txTrace) ≠ some sendingTwo.txTrace := by decide

theorem witness_CanonicalMemoriesAreEqualWhenReadsAgree :
    Mem.wf rxUnlisted 2 [(0, 0x41#8)] ∧ Mem.wf txUnlisted 2 [(1, 0x00#8)] := by decide

end Sys2Proof.Tests
end

/-! The statements of 00_scope.md: a step executes the command it takes, the state after `rst` meets the invariants,
no step changes the configuration, and a dutiful environment never stops the block. -/

namespace Sys2Proof.Machine

/-! ### The configuration -/

/-- No command changes the configuration (00_scope.md R6). -/
theorem exec_cfg {i : Instr} {s t : State} (h : exec i s = .next t) : t.cfg = s.cfg := by
  rcases exec_cases h with ⟨st, -, rfl, -⟩ | ⟨-, rfl⟩ | ⟨b, r, -, -, hstore, rfl⟩ | ⟨n, -, -, -, rfl⟩ |
    ⟨-, rfl⟩ | ⟨n, r, u, -, -, -, -, -, hfill, hpump, rfl⟩ | ⟨u, -, hpump, rfl⟩ |
    ⟨r, u, -, -, hretire, harm, rfl⟩ | ⟨p, b, -, -, rfl⟩
  case inr.inr.inl => simp [(State.rxStore_eq_some.mp hstore).2]
  case inr.inr.inr.inr.inr.inl => exact ((State.fillBlocks_frame hfill).trans (State.pump_frame hpump)).1
  case inr.inr.inr.inr.inr.inr.inl => exact (State.pump_frame hpump).1
  case inr.inr.inr.inr.inr.inr.inr.inl =>
    exact ((State.retire_frame hretire).trans (State.armOrIdle_frame harm)).1
  all_goals rfl

/-- Settles O14: having the configuration of `s` is kept by `rst` and by every command. -/
theorem stepKeepsTheConfiguration : Obligations.StepKeepsTheConfiguration := by
  intro s t h
  exact step_keeps (P := fun u => u.cfg = s.cfg) (fun _ _ _ hu => hu) (fun _ hu => hu)
    (fun _ _ _ hu hexec => (exec_cfg hexec).trans hu) rfl h

/-! ### Commands complete -/

/-- A command whose slots exist completes. -/
theorem exists_next_formed_map {o : Option State} (h : ∃ u, o = some u) (f : State → State) :
    ∃ t, formed (o.map f) = .next t := by
  obtain ⟨u, rfl⟩ := h
  exact ⟨f u, rfl⟩

/-- The pump step never fails on a queue that meets its invariant and has a block to retire where it retires one
(41_tx_queue.md R108, R110). -/
theorem State.txInv.exists_pump {s : State} (hI : s.txInv)
    (hdone : s.tx.dmaState = .transferDone → 1 ≤ s.tx.count) : ∃ t, s.pump = some t := by
  cases hd : s.tx.dmaState with
  | idle =>
    obtain ⟨t, ht⟩ := hI.exists_armOrIdle
    exact ⟨t, State.pump_eq_some.mpr (.inr (.inl ⟨hd, ht⟩))⟩
  | transmitting => exact ⟨s, State.pump_eq_some.mpr (.inl ⟨hd, rfl⟩)⟩
  | transferDone =>
    obtain ⟨r, hr, hrI, -⟩ := State.retire_spec hI (hdone hd)
    obtain ⟨t, ht⟩ := hrI.exists_armOrIdle
    exact ⟨t, State.pump_eq_some.mpr (.inr (.inr ⟨hd, r, hr, ht⟩))⟩

/-- `RXPUSH` completes: the head of a ring that meets its invariant is a slot (40_rx_ring.md R83, R84). -/
theorem exec_rxpush_completes {s : State} (hI : s.rxInv) (b : Byte) : ∃ t, exec (.rxpush b) s = .next t := by
  obtain ⟨-, hhead, -, -⟩ := hI
  by_cases hfull : s.rx.count = s.cfg.rc
  · exact ⟨_, exec_rxpush_full hfull b⟩
  · rw [exec_rxpush_ok hfull]
    exact exists_next_formed_map ⟨_, State.rxStore_eq_some.mpr ⟨hhead, rfl⟩⟩ _

/-- `RXPOP` completes (40_rx_ring.md R86). -/
theorem exec_rxpop_completes {s : State} (hrc : 1 ≤ s.cfg.rc) (len : Nat) :
    ∃ t, exec (.rxpop len) s = .next t := by
  by_cases hshort : s.rx.count < len
  · exact ⟨_, exec_rxpop_short hshort⟩
  · exact ⟨_, exec_rxpop_ok (Nat.le_of_not_lt hshort) hrc⟩

/-- `TXENQ` completes when its payload is there (41_tx_queue.md R101 to R105): the blocks it needs fill free slots,
and the pump step that follows has nothing to retire between commands. -/
theorem exec_txenq_completes {s : State} {len : Nat} (hbs : 1 ≤ s.cfg.bs) (hI : s.txInv)
    (hrest : s.tx.dmaState ≠ .transferDone) (hpay : len ≤ s.appIn.length) :
    ∃ t, exec (.txenq len) s = .next t := by
  rcases Nat.eq_zero_or_pos len with rfl | hlen
  · exact ⟨_, exec_txenq_zero s⟩
  by_cases hfull : s.cfg.nb < s.tx.count + blocksNeeded s.cfg.bs len
  · exact ⟨_, exec_txenq_full hlen hbs hfull⟩
  have hfree := Nat.le_of_not_lt hfull
  have hdata : (s.appIn.take len).length = len := List.length_take_of_le hpay
  obtain ⟨hhi, hlo⟩ := blocksNeeded_bounds (len := len) hbs
  obtain ⟨r, hr, hrI, -⟩ := State.fillBlocks_spec (blocksNeeded s.cfg.bs len) (s.appIn.take len) s hbs hI hfree
    (by rwa [hdata]) (by rwa [hdata])
  obtain ⟨-, -, -, hstate, -⟩ := State.fillBlocks_rest hr
  obtain ⟨u, hu⟩ := hrI.exists_pump fun hd => absurd (hstate.symm.trans hd) hrest
  rw [exec_txenq_ok hlen hbs hfree hpay]
  exact exists_next_formed_map ⟨u, Option.bind_eq_some_iff.mpr ⟨r, hr, hu⟩⟩ _

/-- `TXPUMP` completes between commands (41_tx_queue.md R108). -/
theorem exec_txpump_completes {s : State} (hI : s.txInv) (hrest : s.tx.dmaState ≠ .transferDone) :
    ∃ t, exec .txpump s = .next t :=
  exists_next_formed_map (hI.exists_pump fun hd => absurd hd hrest) _

/-- `TXDONE` completes in `Transmitting`, with the block it retires queued (41_tx_queue.md R115). -/
theorem exec_txdone_completes {s : State} (hI : s.txInv) (hd : s.tx.dmaState = .transmitting)
    (hcount : 1 ≤ s.tx.count) : ∃ t, exec .txdone s = .next t := by
  have hI' : State.txInv { s with tx := { s.tx with dmaState := .transferDone } } := hI
  rw [exec_txdone_ok hd]
  exact exists_next_formed_map (hI'.exists_pump fun _ => hcount) _

/-- `OPEN` completes, with an error for a pin that is not supported (42_channel.md R126, R128). -/
theorem exec_chOpen_completes (pin baud : Nat) (s : State) : ∃ t, exec (.chOpen pin baud) s = .next t := by
  simp only [exec, execChOpen]
  split
  · exact ⟨_, rfl⟩
  · exact ⟨_, rfl⟩

/-- Settles O16, command by command: the invariant gives the slots, the environment's duties the payload of a
`TXENQ` and the block in flight of a `TXDONE`. -/
theorem dutifulEnvironmentNeverStopsTheBlock : Obligations.DutifulEnvironmentNeverStopsTheBlock := by
  rintro i s ⟨⟨hrc, -, hbs, -⟩, -, hrx, htx, ⟨-, htransmitting, hrest⟩, -⟩ hduty
  cases i with
  | rxrst => exact ⟨_, exec_rxrst s⟩
  | rxpush b => exact exec_rxpush_completes hrx b
  | rxpop len => exact exec_rxpop_completes hrc len
  | txrst => exact ⟨_, exec_txrst s⟩
  | txenq len => exact exec_txenq_completes hbs htx hrest (of_decide_eq_true hduty)
  | txpump => exact exec_txpump_completes htx hrest
  | txdone =>
    have hd : s.tx.dmaState = .transmitting := of_decide_eq_true hduty
    exact exec_txdone_completes htx hd (htransmitting hd).1
  | chOpen pin baud => exact exec_chOpen_completes pin baud s

/-! ### The step and its command -/

/-- Settles O7: the first input can be delivered, so it is the one taken, and its port's condition holds. -/
theorem stepExecutesTheTakenCommand : Obligations.StepExecutesTheTakenCommand := by
  intro s r rest i hin hdec hrx hdma
  have htake : takeFirst s.delivers s.inputs = some (.command r, rest) := by
    rw [hin]
    exact takeFirst_cons_of_can ((s.delivers_command r).mpr hrx) rest
  have hopen : ¬ (r.port = .dmairq ∧ s.dmaIrqOpen = false) := by
    rintro ⟨hp, hclosed⟩
    obtain ⟨htcie, hen⟩ := hdma hp
    simp [State.dmaIrqOpen, htcie, hen] at hclosed
  simp only [step_of_take_command htake, hdec, if_neg hopen]

/-! ### The state after `rst` -/

/-- Every slot is unused after `rst` (10_state.md R34). -/
@[simp] theorem State.usedAt_ofRst (p : Params) (b : Nat) : (State.ofRst p).usedAt b = 0 := by
  by_cases hb : b < p.nb <;> simp [State.usedAt, State.ofRst, hb]

theorem State.ofRst_rxInv {p : Params} (h : p.wf) : (State.ofRst p).rxInv := by
  obtain ⟨hrc, -⟩ := h
  exact ⟨Nat.zero_le _, hrc, hrc, (Nat.zero_mod _).symm⟩

theorem State.ofRst_txInv {p : Params} (h : p.wf) : (State.ofRst p).txInv := by
  obtain ⟨-, hnb, -⟩ := h
  exact ⟨Nat.zero_le _, hnb, hnb, (Nat.zero_mod _).symm, List.length_replicate,
    fun _ _ hj => absurd hj (Nat.not_lt_zero _), fun _ _ _ => State.usedAt_ofRst p _⟩

theorem State.ofRst_restInv (p : Params) : (State.ofRst p).restInv :=
  ⟨fun _ => ⟨rfl, rfl⟩, nofun, nofun⟩

/-- The state after `rst` meets the invariant of the block (10_state.md R18, R22, R23). -/
theorem State.ofRst_inv {p : Params} (h : p.wf) : (State.ofRst p).Inv := by
  have ⟨_, hnb, _⟩ := h
  exact ⟨h, ⟨Mem.wf_nil _ _, Mem.wf_nil _ _⟩, State.ofRst_rxInv h, State.ofRst_txInv h, State.ofRst_restInv p,
    hnb, Nat.zero_le _⟩

/-- Nothing is queued, in flight, accepted or delivered after `rst`. -/
theorem State.ofRst_emptyInvs (p : Params) :
    (State.ofRst p).writtenInv ∧ (State.ofRst p).inFlightInv ∧ (State.ofRst p).rxFlowInv ∧
      (State.ofRst p).txFlowInv :=
  ⟨fun _ hj => absurd hj (Nat.not_lt_zero _), nofun, rfl, rfl⟩

/-- Settles O12: the registers are 0 and the parameters positive; `State.reset` is the case of the reference
configuration. -/
theorem resetMeetsTheInvariants : Obligations.ResetMeetsTheInvariants :=
  ⟨fun p h => ⟨State.ofRst_inv h, State.ofRst_emptyInvs p⟩, State.ofRst_inv (p := Params.reference) (by decide)⟩

end Sys2Proof.Machine

/-! The statements of 10_state.md: every step keeps the invariant of the block, and which commands write which
registers. -/

namespace Sys2Proof.Machine

/-! ### The ring keeps its invariant (R18) -/

theorem State.rxClear_rxInv {s : State} (hrc : 1 ≤ s.cfg.rc) : s.rxClear.rxInv :=
  ⟨Nat.zero_le _, hrc, hrc, (Nat.zero_mod _).symm⟩

theorem State.rxStore_rxInv {s t : State} {b : Byte} (hI : s.rxInv) (hroom : s.rx.count ≠ s.cfg.rc)
    (h : s.rxStore b = some t) : t.rxInv := by
  obtain ⟨hcount, hhead, htail, heq⟩ := hI
  obtain ⟨-, rfl⟩ := State.rxStore_eq_some.mp h
  refine ⟨Nat.lt_of_le_of_ne hcount hroom, Nat.mod_lt _ (Nat.zero_lt_of_lt hhead), htail, ?_⟩
  show (s.rx.head + 1) % s.cfg.rc = (s.rx.tail + (s.rx.count + 1)) % s.cfg.rc
  rw [heq, Nat.mod_add_mod, Nat.add_assoc]

theorem State.rxDrop_rxInv {s : State} {n : Nat} (hI : s.rxInv) (hn : n ≤ s.rx.count) : (s.rxDrop n).rxInv := by
  obtain ⟨hcount, hhead, -, heq⟩ := hI
  refine ⟨Nat.le_trans (Nat.sub_le _ _) hcount, hhead, Nat.mod_lt _ (Nat.zero_lt_of_lt hhead), ?_⟩
  show s.rx.head = ((s.rx.tail + n) % s.cfg.rc + (s.rx.count - n)) % s.cfg.rc
  rw [heq, Nat.mod_add_mod, Nat.add_assoc, Nat.add_sub_cancel' hn]

/-! ### The invariant in the middle of a command -/

/-- The invariant of the block without the facts of the rest-state lemma (R23), which need not hold between the
sub-operations of one command. -/
abbrev State.midInv (s : State) : Prop := s.cfg.wf ∧ Memory.wf s ∧ s.rxInv ∧ s.txInv ∧ s.dmaInv

theorem State.inv_iff {s : State} : s.Inv ↔ s.midInv ∧ s.restInv := by
  unfold State.Inv State.midInv
  tauto

/-- The slots a request fills are the free ones, counted from the tail (41_tx_queue.md R105). -/
theorem State.txInv.head_add {s : State} (hI : s.txInv) (j : Nat) :
    (s.tx.head + j) % s.cfg.nb = s.slotAt (s.tx.count + j) := by
  rw [hI.head_eq, State.slotAt, State.slotAt, Nat.mod_add_mod, Nat.add_assoc]

/-- Filling the blocks of a request that fits keeps all but the rest-state facts, and the size of a queued block. -/
theorem State.fillBlocks_midInv {s t : State} {len : Nat} {data : List Byte} (hI : s.midInv)
    (hlen : data.length = len) (hfit : s.tx.count + blocksNeeded s.cfg.bs len ≤ s.cfg.nb)
    (h : State.fillBlocks (blocksNeeded s.cfg.bs len) data s = some t) :
    t.midInv ∧ s.tx.count ≤ t.tx.count ∧ ∀ j < s.tx.count, t.usedAt (s.slotAt j) = s.usedAt (s.slotAt j) := by
  obtain ⟨hcfg, hmem, hrx, htx, hdma⟩ := hI
  have ⟨_, _, hbs, _⟩ := hcfg
  obtain ⟨hhi, hlo⟩ := blocksNeeded_bounds (len := len) hbs
  obtain ⟨t', ht', htx', hcount, -, -, hused, -, -, -, hmem'⟩ :=
    State.fillBlocks_spec _ data s hbs htx hfit (hlen ▸ hlo) (hlen ▸ hhi)
  obtain rfl := Option.some.inj (ht'.symm.trans h)
  obtain ⟨hc, hr, -⟩ := State.fillBlocks_frame h
  obtain ⟨hd, -⟩ := State.fillBlocks_rest h
  refine ⟨⟨hc ▸ hcfg, hmem' hmem, ?_, htx', ?_⟩, by omega, fun j hj => hused _ fun k hk he => ?_⟩
  · rwa [State.rxInv, hc, hr]
  · rwa [State.dmaInv, hc, hd]
  · rw [htx.head_add] at he
    have := State.slotAt_inj (by omega) (by omega) he
    omega

theorem State.retire_midInv {s t : State} (hI : s.midInv) (h : s.retire = some t) : t.midInv := by
  obtain ⟨hcfg, hmem, hrx, htx, hdma⟩ := hI
  obtain ⟨⟨-, hcount⟩, ht⟩ := State.retire_eq_some.mp h
  obtain ⟨t', ht', htx', -⟩ := State.retire_spec htx hcount
  obtain rfl := Option.some.inj (ht'.symm.trans h)
  subst ht
  exact ⟨hcfg, hmem, hrx, htx', hdma⟩

/-- Arming the oldest block or going idle brings the block to rest. -/
theorem State.armOrIdle_inv {s t : State} (hI : s.midInv) (h : s.armOrIdle = some t) : t.Inv := by
  obtain ⟨hcfg, hmem, hrx, htx, hdma⟩ := hI
  obtain ⟨htx', hrest, hdma', hblk, -⟩ := State.armOrIdle_spec htx hdma h
  obtain ⟨hc, hr, -⟩ := State.armOrIdle_frame h
  refine ⟨hc ▸ hcfg, ?_, ?_, htx', hrest, hdma'⟩
  · rwa [Memory.wf, hc, hr, hblk]
  · rwa [State.rxInv, hc, hr]

/-- The pump step brings the block to rest; a transfer it leaves alone has to be at rest before. -/
theorem State.pump_inv {s t : State} (hI : s.midInv) (hrest : s.tx.dmaState = .transmitting → s.restInv)
    (h : s.pump = some t) : t.Inv := by
  rcases State.pump_eq_some.mp h with ⟨hd, rfl⟩ | ⟨-, harm⟩ | ⟨-, r, hretire, harm⟩
  · exact State.inv_iff.mpr ⟨hI, hrest hd⟩
  · exact State.armOrIdle_inv hI harm
  · exact State.armOrIdle_inv (State.retire_midInv hI hretire) harm

/-- A transfer in flight stays at rest while blocks are filled behind it. -/
theorem State.fillBlocks_restInv {s t : State} {k : Nat} {data : List Byte} (htail : s.tx.tail < s.cfg.nb)
    (hrest : s.restInv) (hcount : s.tx.count ≤ t.tx.count)
    (hused : ∀ j < s.tx.count, t.usedAt (s.slotAt j) = s.usedAt (s.slotAt j))
    (h : State.fillBlocks k data s = some t) (hd : t.tx.dmaState = .transmitting) : t.restInv := by
  obtain ⟨hdma, -, htl, hstate, -⟩ := State.fillBlocks_rest h
  obtain ⟨-, htransmitting, -⟩ := hrest
  obtain ⟨hpos, hen, htcie, hblk, hlen⟩ := htransmitting (hstate.symm.trans hd)
  have h0 := hused 0 hpos
  rw [State.slotAt_zero htail] at h0
  refine ⟨fun hi => ?_, fun _ => ?_, fun ht => ?_⟩
  · simp [hd] at hi
  · rw [hdma, htl, h0]
    exact ⟨by omega, hen, htcie, hblk, hlen⟩
  · simp [hd] at ht

/-! ### Every command keeps the invariant -/

theorem State.rxClear_inv {s : State} (hI : s.Inv) : s.rxClear.Inv := by
  obtain ⟨hcfg, hmem, -, hrest⟩ := hI
  exact ⟨hcfg, State.rxClear_memory hmem, State.rxClear_rxInv hcfg.1, hrest⟩

/-- The queue after `TXRST` is the queue after `rst`, but for TXMEM (41_tx_queue.md R96). -/
theorem State.txClear_inv {s : State} (hI : s.Inv) : s.txClear.Inv := by
  obtain ⟨hcfg, hmem, hrx, -, -, hdma⟩ := hI
  exact ⟨hcfg, State.txClear_memory hmem, hrx, State.ofRst_txInv hcfg, ⟨fun _ => ⟨rfl, rfl⟩, nofun, nofun⟩, hdma⟩

theorem State.rxStore_inv {s t : State} {b : Byte} (hI : s.Inv) (hroom : s.rx.count ≠ s.cfg.rc)
    (h : s.rxStore b = some t) : t.Inv := by
  obtain ⟨hcfg, hmem, hrx, hrest⟩ := hI
  have hmem' := State.rxStore_memory h hmem
  have hrx' := State.rxStore_rxInv hrx hroom h
  obtain ⟨-, rfl⟩ := State.rxStore_eq_some.mp h
  exact ⟨hcfg, hmem', hrx', hrest⟩

theorem State.rxDrop_inv {s : State} {n : Nat} (hI : s.Inv) (hn : n ≤ s.rx.count) : (s.rxDrop n).Inv := by
  obtain ⟨hcfg, hmem, hrx, hrest⟩ := hI
  exact ⟨hcfg, hmem, State.rxDrop_rxInv hrx hn, hrest⟩

/-- An accepted `TXENQ` keeps the invariant (41_tx_queue.md R101). -/
theorem State.fillBlocks_pump_inv {s r t : State} {len : Nat} {data : List Byte} (hI : s.Inv)
    (hlen : data.length = len) (hfit : s.tx.count + blocksNeeded s.cfg.bs len ≤ s.cfg.nb)
    (hfill : State.fillBlocks (blocksNeeded s.cfg.bs len) data s = some r) (hpump : r.pump = some t) : t.Inv := by
  obtain ⟨hmid, hrest⟩ := State.inv_iff.mp hI
  obtain ⟨hr, hcount, hused⟩ := State.fillBlocks_midInv hmid hlen hfit hfill
  obtain ⟨-, -, -, ⟨-, -, htail, -⟩, -⟩ := hmid
  exact State.pump_inv hr (State.fillBlocks_restInv htail hrest hcount hused hfill) hpump

/-- The invariant does not read what was emitted. -/
theorem State.Inv.answer {s : State} {i : Instr} {st : Status} {inp out : List Byte} (hI : s.Inv) :
    (s.answer i st inp out).Inv := hI

/-- Every command keeps the invariant of the block. -/
theorem exec_inv {i : Instr} {s t : State} (hI : s.Inv) (h : exec i s = .next t) : t.Inv := by
  obtain ⟨hmid, hrest⟩ := State.inv_iff.mp hI
  rcases exec_cases h with ⟨st, -, rfl, -⟩ | ⟨-, rfl⟩ | ⟨b, r, -, hroom, hstore, rfl⟩ | ⟨n, -, hn, -, rfl⟩ |
    ⟨-, rfl⟩ | ⟨n, r, u, -, -, -, hfit, hpay, hfill, hpump, rfl⟩ | ⟨u, -, hpump, rfl⟩ |
    ⟨r, u, -, -, hretire, harm, rfl⟩ | ⟨p, b, -, -, rfl⟩
  · exact hI
  · exact (State.rxClear_inv hI).answer
  · exact (State.rxStore_inv hI hroom hstore).answer
  · exact (State.rxDrop_inv hI hn).answer
  · exact (State.txClear_inv hI).answer
  · exact (State.fillBlocks_pump_inv hI (List.length_take_of_le hpay) hfit hfill hpump).answer
  · exact (State.pump_inv hmid (fun _ => hrest) hpump).answer
  · have hdone : State.midInv { s with tx := { s.tx with dmaState := .transferDone } } := hmid
    exact (State.armOrIdle_inv (State.retire_midInv hdone hretire) harm).answer
  · have hcleared : s.txClear.rxClear.Inv := State.rxClear_inv (State.txClear_inv hI)
    exact hcleared

/-- Settles O13: the invariant reads neither the inputs nor APPIN, holds after `rst` and is kept by every
command. -/
theorem stepKeepsTheInvariant : Obligations.StepKeepsTheInvariant := by
  intro s t hI h
  exact step_keeps (P := State.Inv) (fun _ _ _ hu => hu) (fun _ hu => State.ofRst_inv hu.1)
    (fun _ _ _ hu hexec => exec_inv hu hexec) hI h

/-! ### Nothing to deliver (R34) -/

/-- Settles O8: no input of the list can be delivered, so the step takes none. -/
theorem nothingDeliverableChangesNothing : Obligations.NothingDeliverableChangesNothing := by
  intro s hrxirq hen
  refine step_of_take_none (takeFirst_eq_none.mpr fun x hx => ?_)
  obtain ⟨r, rfl, hport⟩ := hrxirq x hx
  simp [State.delivers, hport, hen]

/-! ### Equal cursors (R17) -/

/-- Going at most once round a ring of `n`, one is back at the start after no step or after all of them. -/
theorem ring_index_eq_self_iff {n a c : Nat} (ha : a < n) (hc : c ≤ n) : (a + c) % n = a ↔ c = 0 ∨ c = n := by
  by_cases hwrap : a + c < n
  · rw [Nat.mod_eq_of_lt hwrap]
    omega
  · rw [Nat.mod_eq_sub_mod (Nat.le_of_not_lt hwrap), Nat.mod_eq_of_lt (by omega)]
    omega

/-- Settles O27: by the head equation the head is the tail moved on by the count. -/
theorem equalCursorsMeanFullOrEmpty : Obligations.EqualCursorsMeanFullOrEmpty := by
  refine fun s => ⟨fun ⟨hcount, _, htail, hhead⟩ => ?_, fun ⟨hcount, _, htail, hhead, _⟩ => ?_⟩
  · rw [hhead, State.rxEmpty_iff, State.rxFull_iff]
    exact ring_index_eq_self_iff htail hcount
  · rw [hhead, State.txEmpty_iff, State.txFull_iff]
    exact ring_index_eq_self_iff htail hcount

/-! ### What the commands leave alone -/

theorem State.txFrame.rx_eq {s t : State} (h : s.txFrame t) : t.rx = s.rx := h.2.1

theorem State.txFrame.ch_eq {s t : State} (h : s.txFrame t) : t.ch = s.ch := h.2.2.1

theorem exec_chOpen_unsupported {s : State} {pin : Nat} (h : s.cfg.pins.getLsbD pin = false) (baud : Nat) :
    exec (.chOpen pin baud) s = .next (s.raise (.chOpen pin baud) .openFailed) := by
  simp [exec, execChOpen, pinSupported, h]

theorem exec_chOpen_supported {s : State} {pin : Nat} (h : s.cfg.pins.getLsbD pin = true) (baud : Nat) :
    exec (.chOpen pin baud) s = .next { s.txClear.rxClear with
      ch := ⟨true, true⟩
      events := s.events ++ [.cfgReq baud pin, .returned ⟨.chOpen pin baud, .ok, [], []⟩] } := by
  simp [exec, execChOpen, pinSupported, h, State.answer, State.emit, State.rxClear, State.txClear]

/-- Only the RX commands and `OPEN` write the ring (41_tx_queue.md R95). -/
theorem exec_rx_of_not_isRx {i : Instr} {s t : State} (h : exec i s = .next t) (hi : i.isRx = false)
    (hopen : ∀ p b, i ≠ .chOpen p b) : t.rx = s.rx := by
  rcases exec_cases h with ⟨st, -, rfl, -⟩ | ⟨rfl, -⟩ | ⟨b, r, rfl, -⟩ | ⟨n, rfl, -⟩ |
    ⟨-, rfl⟩ | ⟨n, r, u, -, -, -, -, -, hfill, hpump, rfl⟩ | ⟨u, -, hpump, rfl⟩ |
    ⟨r, u, -, -, hretire, harm, rfl⟩ | ⟨p, b, rfl, -⟩
  · rfl
  · exact absurd hi nofun
  · exact absurd hi nofun
  · exact absurd hi nofun
  · rfl
  · exact ((State.fillBlocks_frame hfill).trans (State.pump_frame hpump)).rx_eq
  · exact (State.pump_frame hpump).rx_eq
  · exact ((State.retire_frame hretire).trans (State.armOrIdle_frame harm)).rx_eq
  · exact absurd rfl (hopen p b)

/-! ### The ring is a bounded FIFO (R18, R19) -/

@[simp] theorem State.length_rxWindow (s : State) : s.rxWindow.length = s.rx.count := s.length_rxRun _

theorem exec_rxpush_window {s t : State} {b : Byte} (hI : s.rxInv) (h : exec (.rxpush b) s = .next t) :
    t.rxWindow = if s.rxWindow.length < s.cfg.rc then s.rxWindow ++ [b] else s.rxWindow := by
  rw [State.length_rxWindow]
  by_cases hfull : s.rx.count = s.cfg.rc
  · rw [exec_rxpush_full hfull] at h
    obtain rfl := Host.Outcome.next.inj h
    rw [if_neg (Nat.not_lt.mpr hfull.ge)]
    rfl
  · rw [exec_rxpush_ok hfull, formed_eq_next, Option.map_eq_some_iff] at h
    obtain ⟨r, hstore, rfl⟩ := h
    have ⟨hcount, _⟩ := hI
    rw [if_pos (Nat.lt_of_le_of_ne hcount hfull)]
    have hwindow : r.rxWindow = s.rxWindow ++ [b] := State.rxStore_window hI hfull hstore
    exact hwindow

theorem exec_rxpop_window {s t : State} {len : Nat} (hI : s.rxInv) (h : exec (.rxpop len) s = .next t) :
    if len ≤ s.rxWindow.length then
      t.rxWindow = s.rxWindow.drop len ∧
        t.events = s.events ++ [.returned ⟨.rxpop len, .ok, [], s.rxWindow.take len⟩]
    else t.rxWindow = s.rxWindow := by
  rw [State.length_rxWindow]
  split
  next hlen =>
    obtain ⟨-, hhead, -⟩ := hI
    obtain ⟨hdrop, htake⟩ := State.rxDrop_window hlen
    rw [exec_rxpop_ok hlen (Nat.zero_lt_of_lt hhead)] at h
    obtain rfl := Host.Outcome.next.inj h
    exact ⟨hdrop, by rw [← htake]; rfl⟩
  next hlen =>
    rw [exec_rxpop_short (Nat.lt_of_not_le hlen)] at h
    obtain rfl := Host.Outcome.next.inj h
    rfl

theorem exec_chOpen_window {s t : State} {pin baud : Nat} (h : exec (.chOpen pin baud) s = .next t) :
    t.rxWindow = if s.cfg.pins.getLsbD pin then [] else s.rxWindow := by
  cases hp : s.cfg.pins.getLsbD pin
  · rw [exec_chOpen_unsupported hp] at h
    obtain rfl := Host.Outcome.next.inj h
    rfl
  · rw [exec_chOpen_supported hp] at h
    obtain rfl := Host.Outcome.next.inj h
    rfl

/-- Settles O23, command by command; the TX commands do not touch the ring. -/
theorem ringIsABoundedFifo : Obligations.RingIsABoundedFifo := by
  intro i s t hI h
  cases i with
  | rxrst =>
    obtain rfl := Host.Outcome.next.inj h
    rfl
  | rxpush byte => exact exec_rxpush_window hI h
  | rxpop len => exact exec_rxpop_window hI h
  | txrst => exact State.rxWindow_congr (exec_cfg h) (exec_rx_of_not_isRx h rfl nofun)
  | txenq len => exact State.rxWindow_congr (exec_cfg h) (exec_rx_of_not_isRx h rfl nofun)
  | txpump => exact State.rxWindow_congr (exec_cfg h) (exec_rx_of_not_isRx h rfl nofun)
  | txdone => exact State.rxWindow_congr (exec_cfg h) (exec_rx_of_not_isRx h rfl nofun)
  | chOpen pin baud => exact exec_chOpen_window h

/-! ### The bytes of queued blocks are written (R30) -/

/-- A run of bytes written to TXMEM lists its own addresses and unlists none. -/
theorem Mem.isSome_find_writeRun_tx (vs : List Byte) (m : Mem) (a b : Nat) :
    (Mem.find (Mem.writeRun txUnlisted m a vs) b).isSome = true ↔
      (a ≤ b ∧ b < a + vs.length) ∨ (Mem.find m b).isSome = true := by
  rw [Mem.find_writeRun_tx]
  split
  next hin =>
    have hlt : b - a < vs.length := by omega
    simp [hlt, hin]
  next hout => simp [hout]

/-- Filling a block at the head writes the bytes it counts, and the next head is again the first free slot. -/
theorem State.fillBlock_writtenInv {s t : State} {bytes : List Byte} (hw : s.writtenInv)
    (hhead : s.tx.head = s.slotAt s.tx.count) (h : s.fillBlock bytes = some t) :
    t.writtenInv ∧ t.tx.head = t.slotAt t.tx.count := by
  have hused := State.fillBlock_used h
  obtain ⟨-, rfl⟩ := State.fillBlock_eq_some.mp h
  refine ⟨fun j hj i hi => (Mem.isSome_find_writeRun_tx ..).mpr ?_, ?_⟩
  · rw [hused] at hi
    split at hi
    next heq =>
      rw [heq]
      exact .inl ⟨Nat.add_le_add_left (Nat.zero_le i) _, Nat.add_lt_add_left hi _⟩
    next hne =>
      have hjc : j < s.tx.count := by
        refine Nat.lt_of_le_of_ne (Nat.le_of_lt_succ hj) ?_
        rintro rfl
        exact hne hhead.symm
      exact .inr (hw j hjc i hi)
  · show (s.tx.head + 1) % s.cfg.nb = (s.tx.tail + (s.tx.count + 1)) % s.cfg.nb
    rw [hhead, State.slotAt, Nat.mod_add_mod, Nat.add_assoc]

theorem State.fillBlocks_writtenInv {s t : State} {k : Nat} {data : List Byte} (hw : s.writtenInv)
    (hhead : s.tx.head = s.slotAt s.tx.count) (h : State.fillBlocks k data s = some t) : t.writtenInv :=
  (State.fillBlocks_keeps (P := fun r => r.writtenInv ∧ r.tx.head = r.slotAt r.tx.count)
    (fun hr hu => State.fillBlock_writtenInv hr.1 hr.2 hu) ⟨hw, hhead⟩ h).1

/-- Retiring leaves the other blocks of the queue, one place nearer to the tail. -/
theorem State.retire_writtenInv {s t : State} (hw : s.writtenInv) (h : s.retire = some t) : t.writtenInv := by
  obtain ⟨⟨hsl, -⟩, rfl⟩ := State.retire_eq_some.mp h
  intro j hj i hi
  have hslot : ((s.tx.tail + 1) % s.cfg.nb + j) % s.cfg.nb = s.slotAt (j + 1) := by
    rw [Nat.mod_add_mod, State.slotAt, Nat.add_assoc, Nat.add_comm 1]
  rw [usedAt_set (s := s) rfl ((State.slotExists_iff _ _).mp hsl).2, State.slotAt, hslot] at hi
  rw [State.slotAt, hslot]
  split at hi
  next => exact absurd hi (Nat.not_lt_zero _)
  next => exact hw (j + 1) (Nat.add_lt_of_lt_sub hj) i hi

theorem State.armOrIdle_writtenInv {s t : State} (hw : s.writtenInv) (h : s.armOrIdle = some t) :
    t.writtenInv := by
  rcases State.armOrIdle_eq_some.mp h with ⟨-, rfl⟩ | ⟨-, harm⟩
  · exact hw
  · obtain ⟨-, rfl⟩ := State.arm_eq_some.mp harm
    exact hw

theorem State.pump_writtenInv {s t : State} (hw : s.writtenInv) (h : s.pump = some t) : t.writtenInv := by
  rcases State.pump_eq_some.mp h with ⟨-, rfl⟩ | ⟨-, harm⟩ | ⟨-, r, hretire, harm⟩
  · exact hw
  · exact State.armOrIdle_writtenInv hw harm
  · exact State.armOrIdle_writtenInv (State.retire_writtenInv hw hretire) harm

/-- Nothing is to be written for an empty queue. -/
theorem State.writtenInv_of_empty {s : State} (h : s.tx.count = 0) : s.writtenInv :=
  fun j hj => absurd hj (by omega)

/-- Storing a received byte does not touch the queue. -/
theorem State.rxStore_writtenInv {s t : State} {b : Byte} (hw : s.writtenInv) (h : s.rxStore b = some t) :
    t.writtenInv := by
  obtain ⟨-, rfl⟩ := State.rxStore_eq_some.mp h
  exact hw

theorem State.writtenInv_answer {s : State} {i : Instr} {st : Status} {inp out : List Byte} :
    (s.answer i st inp out).writtenInv ↔ s.writtenInv := Iff.rfl

theorem exec_writtenInv {i : Instr} {s t : State} (hhead : s.tx.head = s.slotAt s.tx.count) (hw : s.writtenInv)
    (h : exec i s = .next t) : t.writtenInv := by
  rcases exec_cases h with ⟨st, -, rfl, -⟩ | ⟨-, rfl⟩ | ⟨b, r, -, -, hstore, rfl⟩ | ⟨n, -, -, -, rfl⟩ |
    ⟨-, rfl⟩ | ⟨n, r, u, -, -, -, -, -, hfill, hpump, rfl⟩ | ⟨u, -, hpump, rfl⟩ |
    ⟨r, u, -, -, hretire, harm, rfl⟩ | ⟨p, b, -, -, rfl⟩
  · exact hw
  · exact hw
  · exact State.writtenInv_answer.mpr (State.rxStore_writtenInv hw hstore)
  · exact hw
  · exact State.writtenInv_of_empty rfl
  · exact State.writtenInv_answer.mpr (State.pump_writtenInv (State.fillBlocks_writtenInv hw hhead hfill) hpump)
  · exact State.writtenInv_answer.mpr (State.pump_writtenInv hw hpump)
  · have hdone : State.writtenInv { s with tx := { s.tx with dmaState := .transferDone } } := hw
    exact State.writtenInv_answer.mpr (State.armOrIdle_writtenInv (State.retire_writtenInv hdone hretire) harm)
  · exact State.writtenInv_of_empty rfl

/-- Settles O43, with the invariant of the block, whose head equation says which slot a request fills. -/
theorem stepKeepsQueuedBytesWritten : Obligations.StepKeepsQueuedBytesWritten := by
  intro s t hI hw h
  refine (step_keeps (P := fun u => u.Inv ∧ u.writtenInv) (fun _ _ _ hu => hu) (fun u hu => ?_)
    (fun i u v hu hexec => ?_) ⟨hI, hw⟩ h).2
  · exact ⟨State.ofRst_inv hu.1.1, State.writtenInv_of_empty rfl⟩
  · obtain ⟨huI, huw⟩ := hu
    have ⟨_, _, _, htx, _⟩ := huI
    exact ⟨exec_inv huI hexec, exec_writtenInv htx.head_eq huw hexec⟩

/-! ### The free bytes are never read (R34) -/

/-- A written byte of TXMEM does not read as the free value that `resets` selects. -/
theorem State.txRead_resets {s : State} {a : Nat} (h : (Mem.find s.tx.blk a).isSome = true) (n : Nat) :
    State.txRead { s with resets := n } a = s.txRead a := by
  obtain ⟨v, hv⟩ := Option.isSome_iff_exists.mp h
  simp [State.txRead, hv]

/-- The bytes of a queued block do not depend on the free values. -/
theorem State.slotBytes_resets {s : State} (hw : s.writtenInv) {j : Nat} (hj : j < s.tx.count) (n : Nat) :
    State.slotBytes { s with resets := n } (s.slotAt j) (s.usedAt (s.slotAt j)) =
      s.slotBytes (s.slotAt j) (s.usedAt (s.slotAt j)) :=
  slotBytes_congr rfl fun i hi => State.txRead_resets (hw j hj i hi) n

theorem State.rxStore_resets {s t : State} {b : Byte} (h : s.rxStore b = some t) (n : Nat) :
    State.rxStore { s with resets := n } b = some { t with resets := n } := by
  obtain ⟨hhead, rfl⟩ := State.rxStore_eq_some.mp h
  exact State.rxStore_eq_some.mpr ⟨hhead, rfl⟩

theorem State.fillBlock_resets {s t : State} {bytes : List Byte} (h : s.fillBlock bytes = some t) (n : Nat) :
    State.fillBlock { s with resets := n } bytes = some { t with resets := n } := by
  obtain ⟨hslot, rfl⟩ := State.fillBlock_eq_some.mp h
  exact State.fillBlock_eq_some.mpr ⟨hslot, rfl⟩

theorem State.fillBlocks_resets {s t : State} {k : Nat} {data : List Byte}
    (h : State.fillBlocks k data s = some t) (n : Nat) :
    State.fillBlocks k data { s with resets := n } = some { t with resets := n } := by
  induction k generalizing s data with
  | zero =>
    obtain rfl := State.fillBlocks_zero.mp h
    rfl
  | succ k ih =>
    obtain ⟨r, hr, ht⟩ := State.fillBlocks_succ.mp h
    exact State.fillBlocks_succ.mpr ⟨_, State.fillBlock_resets hr n, ih ht⟩

theorem State.retire_resets {s t : State} (h : s.retire = some t) (n : Nat) :
    State.retire { s with resets := n } = some { t with resets := n } := by
  obtain ⟨hslot, rfl⟩ := State.retire_eq_some.mp h
  exact State.retire_eq_some.mpr ⟨hslot, rfl⟩

/-- The one operation that reads TXMEM: an arm puts the oldest block into the trace (41_tx_queue.md R111). -/
theorem State.armOrIdle_resets {s t : State} (hw : s.writtenInv) (h : s.armOrIdle = some t) (n : Nat) :
    State.armOrIdle { s with resets := n } = some { t with resets := n } := by
  refine State.armOrIdle_eq_some.mpr ?_
  rcases State.armOrIdle_eq_some.mp h with ⟨hcount, rfl⟩ | ⟨hcount, harm⟩
  · exact .inl ⟨hcount, rfl⟩
  · refine .inr ⟨hcount, ?_⟩
    obtain ⟨hslot, rfl⟩ := State.arm_eq_some.mp harm
    have hbytes := State.slotBytes_resets hw (Nat.pos_of_ne_zero hcount) n
    rw [State.slotAt_zero ((State.slotExists_iff _ _).mp hslot.1).1] at hbytes
    rw [← hbytes]
    exact State.arm_eq_some.mpr ⟨hslot, rfl⟩

theorem State.pump_resets {s t : State} (hw : s.writtenInv) (h : s.pump = some t) (n : Nat) :
    State.pump { s with resets := n } = some { t with resets := n } := by
  refine State.pump_eq_some.mpr ?_
  rcases State.pump_eq_some.mp h with ⟨hd, rfl⟩ | ⟨hd, harm⟩ | ⟨hd, r, hretire, harm⟩
  · exact .inl ⟨hd, rfl⟩
  · exact .inr (.inl ⟨hd, State.armOrIdle_resets hw harm n⟩)
  · exact .inr (.inr ⟨hd, _, State.retire_resets hretire n,
      State.armOrIdle_resets (State.retire_writtenInv hw hretire) harm n⟩)

/-- A command whose slots exist ends with its answer. -/
theorem formed_map_of_eq_some {o : Option State} {u : State} (h : o = some u) (f : State → State) :
    formed (o.map f) = .next (f u) := by
  rw [h]
  rfl

/-- Settles O41: only an arm reads TXMEM, and it reads the bytes of a queued block, which have been written. -/
theorem freeBytesAreNeverSent : Obligations.FreeBytesAreNeverSent := by
  intro i s t n hI hw h
  have ⟨_, _, _, htx, _⟩ := hI
  rcases exec_cases h with ⟨st, -, rfl, herr⟩ | ⟨rfl, rfl⟩ | ⟨b, r, rfl, hroom, hstore, rfl⟩ |
    ⟨len, rfl, hlen, hrc, rfl⟩ | ⟨rfl, rfl⟩ | ⟨len, r, u, rfl, hlen, hbs, hfit, hpay, hfill, hpump, rfl⟩ |
    ⟨u, rfl, hpump, rfl⟩ | ⟨r, u, rfl, hd, hretire, harm, rfl⟩ | ⟨p, b, rfl, hp, rfl⟩
  · rcases herr with ⟨b, rfl, rfl, hfull⟩ | ⟨len, rfl, rfl, hshort⟩ | ⟨rfl, rfl⟩ |
      ⟨len, rfl, hlen, hbs, rfl, hfull⟩ | ⟨p, b, rfl, rfl, hp⟩
    · exact exec_rxpush_full (s := { s with resets := n }) hfull b
    · exact exec_rxpop_short (s := { s with resets := n }) hshort
    · exact exec_txenq_zero { s with resets := n }
    · exact exec_txenq_full (s := { s with resets := n }) hlen hbs hfull
    · exact exec_chOpen_unsupported (s := { s with resets := n }) hp b
  · exact exec_rxrst { s with resets := n }
  · rw [exec_rxpush_ok (s := { s with resets := n }) hroom]
    exact formed_map_of_eq_some (State.rxStore_resets hstore n) _
  · exact exec_rxpop_ok (s := { s with resets := n }) hlen hrc
  · exact exec_txrst { s with resets := n }
  · rw [exec_txenq_ok (s := { s with resets := n }) hlen hbs hfit hpay]
    have hr := State.fillBlocks_writtenInv hw htx.head_eq hfill
    exact formed_map_of_eq_some (Option.bind_eq_some_iff.mpr
      ⟨_, State.fillBlocks_resets hfill n, State.pump_resets hr hpump n⟩) _
  · exact formed_map_of_eq_some (State.pump_resets hw hpump n) _
  · have hdone : State.writtenInv { s with tx := { s.tx with dmaState := .transferDone } } := hw
    rw [exec_txdone_ok (s := { s with resets := n }) hd]
    exact formed_map_of_eq_some (State.pump_resets hdone
      (State.pump_eq_some.mpr (.inr (.inr ⟨rfl, r, hretire, harm⟩))) n) _
  · exact exec_chOpen_supported (s := { s with resets := n }) hp b

/-! ### The writers of the cursors (R14, R15, R20) -/

theorem State.armOrIdle_cursors {s t : State} (h : s.armOrIdle = some t) :
    t.tx.head = s.tx.head ∧ t.tx.tail = s.tx.tail ∧ t.tx.count = s.tx.count := by
  rcases State.armOrIdle_eq_some.mp h with ⟨-, rfl⟩ | ⟨-, harm⟩
  · exact ⟨rfl, rfl, rfl⟩
  · obtain ⟨-, rfl⟩ := State.arm_eq_some.mp harm
    exact ⟨rfl, rfl, rfl⟩

theorem State.retire_head {s t : State} (h : s.retire = some t) : t.tx.head = s.tx.head := by
  obtain ⟨-, rfl⟩ := State.retire_eq_some.mp h
  rfl

/-- The pump step never moves the head, and the tail and the count only by a retire. -/
theorem State.pump_cursors {s t : State} (h : s.pump = some t) :
    t.tx.head = s.tx.head ∧
      (s.tx.dmaState ≠ .transferDone → t.tx.tail = s.tx.tail ∧ t.tx.count = s.tx.count) := by
  rcases State.pump_eq_some.mp h with ⟨-, rfl⟩ | ⟨-, harm⟩ | ⟨hd, r, hretire, harm⟩
  · exact ⟨rfl, fun _ => ⟨rfl, rfl⟩⟩
  · exact ⟨(State.armOrIdle_cursors harm).1, fun _ => (State.armOrIdle_cursors harm).2⟩
  · exact ⟨(State.armOrIdle_cursors harm).1.trans (State.retire_head hretire), fun hrest => absurd hd hrest⟩

/-- Settles O51, by everything a command can do: the pump step moves the tail and the count only out of
`TransferDone`, where no command starts at rest (R23). -/
theorem cursorsHaveTheirOwnWriters : Obligations.CursorsHaveTheirOwnWriters := by
  intro i s t h
  rcases exec_cases h with ⟨st, -, rfl, -⟩ | ⟨rfl, rfl⟩ | ⟨b, r, rfl, -, hstore, rfl⟩ | ⟨len, rfl, -, -, rfl⟩ |
    ⟨rfl, rfl⟩ | ⟨len, r, u, rfl, -, -, -, -, hfill, hpump, rfl⟩ | ⟨u, rfl, hpump, rfl⟩ |
    ⟨r, u, rfl, -, hretire, harm, rfl⟩ | ⟨p, b, rfl, -, rfl⟩
  · simp
  · simp [Instr.isRx]
  · simp [(State.rxStore_eq_some.mp hstore).2, Instr.isRx]
  · simp [Instr.isRx]
  · simp [Instr.isTx]
  · have hrx : u.rx = s.rx := ((State.fillBlocks_frame hfill).trans (State.pump_frame hpump)).rx_eq
    have htail : s.restInv → u.tx.tail = s.tx.tail := by
      rintro ⟨-, -, hrest⟩
      obtain ⟨-, -, hfilled, hstate, -⟩ := State.fillBlocks_rest hfill
      exact ((State.pump_cursors hpump).2 (hstate ▸ hrest)).1.trans hfilled
    exact ⟨absurd (congrArg RxRing.head hrx), absurd (congrArg RxRing.tail hrx), absurd (congrArg RxRing.count hrx),
      fun _ => .inl ⟨len, rfl⟩, fun hmoved hrest => absurd (htail hrest) hmoved, fun _ _ => .inl ⟨len, rfl⟩,
      fun _ => .inl rfl⟩
  · have hrx : u.rx = s.rx := (State.pump_frame hpump).rx_eq
    obtain ⟨hhead, hcursors⟩ := State.pump_cursors hpump
    have hstay : s.restInv → u.tx.tail = s.tx.tail ∧ u.tx.count = s.tx.count := fun ⟨_, _, hrest⟩ => hcursors hrest
    exact ⟨absurd (congrArg RxRing.head hrx), absurd (congrArg RxRing.tail hrx), absurd (congrArg RxRing.count hrx),
      absurd hhead, fun hmoved hrest => absurd (hstay hrest).1 hmoved,
      fun hmoved hrest => absurd (hstay hrest).2 hmoved, fun _ => .inl rfl⟩
  · have hrx : u.rx = s.rx := ((State.retire_frame hretire).trans (State.armOrIdle_frame harm)).rx_eq
    have hretired := State.retire_head hretire
    have hhead : u.tx.head = s.tx.head := (State.armOrIdle_cursors harm).1.trans hretired
    simp [hrx, hhead, Instr.isTx]
  · simp

/-! ### The enable bits (R25, R28) -/

/-- From `s` to `t` the bit `dma.tcie` is kept, or one arm has set it (10_state.md R25). -/
abbrev State.tcieKeptOrArmed (s t : State) : Prop :=
  t.dma.tcie = s.dma.tcie ∨ (t.dma.tcie = true ∧ t.txTrace.length = s.txTrace.length + 1)

theorem State.tcieKeptOrArmed.answer {s t : State} {i : Instr} {st : Status} {inp out : List Byte}
    (h : s.tcieKeptOrArmed t) : s.tcieKeptOrArmed (t.answer i st inp out) := by
  have htrace : (t.answer i st inp out).txTrace = t.txTrace := (txTrace_emit t _).trans (List.append_nil _)
  rwa [State.tcieKeptOrArmed, htrace]

/-- What comes before an arm and neither arms nor writes `dma.tcie` does not count. -/
theorem State.tcieKeptOrArmed.of_eq {s r t : State} (htcie : r.dma.tcie = s.dma.tcie) (htrace : r.txTrace = s.txTrace)
    (h : r.tcieKeptOrArmed t) : s.tcieKeptOrArmed t := by
  rwa [State.tcieKeptOrArmed, ← htcie, ← htrace]

theorem State.armOrIdle_tcie {s t : State} (h : s.armOrIdle = some t) : s.tcieKeptOrArmed t := by
  rcases State.armOrIdle_eq_some.mp h with ⟨-, rfl⟩ | ⟨-, harm⟩
  · exact .inl rfl
  · obtain ⟨-, rfl⟩ := State.arm_eq_some.mp harm
    exact .inr ⟨rfl, by simp [State.txTrace, Event.arm?]⟩

/-- A retire neither arms nor writes `dma.tcie` (41_tx_queue.md R110). -/
theorem State.retire_armOrIdle_tcie {s r t : State} (hretire : s.retire = some r) (harm : r.armOrIdle = some t) :
    s.tcieKeptOrArmed t := by
  obtain ⟨-, hr⟩ := State.retire_eq_some.mp hretire
  have htcie : r.dma.tcie = s.dma.tcie := by rw [hr]
  have htrace : r.txTrace = s.txTrace := by simp [hr, State.txTrace, Event.arm?]
  exact (State.armOrIdle_tcie harm).of_eq htcie htrace

theorem State.pump_tcie {s t : State} (h : s.pump = some t) : s.tcieKeptOrArmed t := by
  rcases State.pump_eq_some.mp h with ⟨-, rfl⟩ | ⟨-, harm⟩ | ⟨-, r, hretire, harm⟩
  · exact .inl rfl
  · exact State.armOrIdle_tcie harm
  · exact State.retire_armOrIdle_tcie hretire harm

theorem State.fillBlocks_pump_tcie {s r t : State} {k : Nat} {data : List Byte}
    (hfill : State.fillBlocks k data s = some r) (hpump : r.pump = some t) : s.tcieKeptOrArmed t := by
  obtain ⟨hdma, hevents, -⟩ := State.fillBlocks_rest hfill
  exact (State.pump_tcie hpump).of_eq (congrArg DmaRegs.tcie hdma) (congrArg (List.filterMap Event.arm?) hevents)

/-- Only an arm changes `dma.tcie`, and it sets it. -/
theorem exec_tcie {i : Instr} {s t : State} (h : exec i s = .next t) : s.tcieKeptOrArmed t := by
  rcases exec_cases h with ⟨st, -, rfl, -⟩ | ⟨-, rfl⟩ | ⟨b, r, -, -, hstore, rfl⟩ | ⟨len, -, -, -, rfl⟩ |
    ⟨-, rfl⟩ | ⟨len, r, u, -, -, -, -, -, hfill, hpump, rfl⟩ | ⟨u, -, hpump, rfl⟩ |
    ⟨r, u, -, -, hretire, harm, rfl⟩ | ⟨p, b, -, -, rfl⟩
  · exact .inl rfl
  · exact .inl rfl
  · obtain ⟨-, rfl⟩ := State.rxStore_eq_some.mp hstore
    exact .inl rfl
  · exact .inl rfl
  · exact .inl rfl
  · exact (State.fillBlocks_pump_tcie hfill hpump).answer
  · exact (State.pump_tcie hpump).answer
  · have harmed := State.retire_armOrIdle_tcie hretire harm
    exact State.tcieKeptOrArmed.answer harmed
  · exact .inl rfl

/-- Only an `OPEN` of a supported pin changes the channel registers, and it sets both (10_state.md R28). -/
theorem exec_ch {i : Instr} {s t : State} (h : exec i s = .next t) :
    t.ch = s.ch ∨ (t.ch = ⟨true, true⟩ ∧ ∃ p b, i = .chOpen p b ∧ s.cfg.pins.getLsbD p = true) := by
  rcases exec_cases h with ⟨st, -, rfl, -⟩ | ⟨-, rfl⟩ | ⟨b, r, -, -, hstore, rfl⟩ | ⟨len, -, -, -, rfl⟩ |
    ⟨-, rfl⟩ | ⟨len, r, u, -, -, -, -, -, hfill, hpump, rfl⟩ | ⟨u, -, hpump, rfl⟩ |
    ⟨r, u, -, -, hretire, harm, rfl⟩ | ⟨p, b, hopen, hp, rfl⟩
  · exact .inl rfl
  · exact .inl rfl
  · obtain ⟨-, rfl⟩ := State.rxStore_eq_some.mp hstore
    exact .inl rfl
  · exact .inl rfl
  · exact .inl rfl
  · exact .inl ((State.fillBlocks_frame hfill).trans (State.pump_frame hpump)).ch_eq
  · exact .inl (State.pump_frame hpump).ch_eq
  · exact .inl ((State.retire_frame hretire).trans (State.armOrIdle_frame harm)).ch_eq
  · exact .inr ⟨rfl, p, b, hopen, hp⟩

/-- Settles O52: whatever changes one of the bits sets it. -/
theorem enableBitsAreOnlySet : Obligations.EnableBitsAreOnlySet := by
  intro i s t h
  refine ⟨?_, ?_, ?_, ?_, ?_⟩
  · rcases exec_ch h with hch | ⟨hch, -⟩ <;> simp [hch]
  · rcases exec_ch h with hch | ⟨hch, -⟩ <;> simp [hch]
  · rcases exec_tcie h with htcie | ⟨htcie, -⟩ <;> simp [htcie]
  · exact fun hne => ((exec_ch h).resolve_left hne).2
  · exact fun hne => ((exec_tcie h).resolve_left hne).2

end Sys2Proof.Machine

/-! The statements of 20_memory.md: what was accepted is what was delivered and what still waits, in order; no
command writes the block in flight; no access outside a memory is formed; and the canonical form of a memory. -/

namespace Sys2Proof.Machine

/-- What a command keeps where the invariant of the block holds, every step keeps there. -/
theorem step_keeps_of_inv {P : State → Prop}
    (hin : ∀ (s : State) (xs : List Input) (p : List Byte), P s → P { s with inputs := xs, appIn := p })
    (hrst : ∀ s : State, P s.hardReset)
    (hexec : ∀ (i : Instr) (s t : State), s.Inv → P s → exec i s = .next t → P t)
    {s t : State} (hI : s.Inv) (hs : P s) (h : step s = .next t) : P t :=
  (step_keeps (P := fun u => u.Inv ∧ P u) (fun u xs p ⟨huI, hu⟩ => ⟨huI, hin u xs p hu⟩)
    (fun u ⟨⟨hcfg, _⟩, _⟩ => ⟨State.ofRst_inv hcfg, hrst u⟩)
    (fun i u v ⟨huI, hu⟩ hi => ⟨exec_inv huI hi, hexec i u v huI hu hi⟩) ⟨hI, hs⟩ h).2

/-! ### Received bytes keep their order (R49) -/

/-- An error neither accepts nor delivers a received byte. -/
theorem rxFlowStep_of_error {r : Response} (h : r.status ≠ .ok) (f : ByteFlow) :
    rxFlowStep f (.returned r) = f := by
  simp only [rxFlowStep]
  split <;> simp_all

/-- The answer of a TX command is no part of the flow of received bytes. -/
theorem rxFlowStep_of_isTx {r : Response} (h : r.cmd.isTx = true) (f : ByteFlow) :
    rxFlowStep f (.returned r) = f := by
  obtain ⟨cmd, st, inp, out⟩ := r
  cases cmd with
  | txrst | txenq _ | txpump | txdone => rfl
  | rxrst | rxpush _ | rxpop _ | chOpen _ _ => exact absurd h nofun

theorem State.rxFlow_answer (s : State) (i : Instr) (st : Status) (inp out : List Byte) :
    (s.answer i st inp out).rxFlow = rxFlowStep s.rxFlow (.returned ⟨i, st, inp, out⟩) :=
  State.rxFlow_append (s.answer_events i st inp out)

theorem State.retire_events {s t : State} (h : s.retire = some t) : t.events = s.events ++ [.dmaClr] := by
  obtain ⟨-, rfl⟩ := State.retire_eq_some.mp h
  rfl

theorem State.retire_rxFlow {s t : State} (h : s.retire = some t) : t.rxFlow = s.rxFlow :=
  State.rxFlow_append (State.retire_events h)

theorem State.armOrIdle_rxFlow {s t : State} (h : s.armOrIdle = some t) : t.rxFlow = s.rxFlow := by
  rcases State.armOrIdle_events h with ⟨-, -, hevents⟩ | ⟨-, -, hevents⟩
  · exact congrArg (List.foldl rxFlowStep _) hevents
  · exact State.rxFlow_append hevents

theorem State.pump_rxFlow {s t : State} (h : s.pump = some t) : t.rxFlow = s.rxFlow := by
  rcases State.pump_eq_some.mp h with ⟨-, rfl⟩ | ⟨-, harm⟩ | ⟨-, r, hretire, harm⟩
  · rfl
  · exact State.armOrIdle_rxFlow harm
  · exact (State.armOrIdle_rxFlow harm).trans (State.retire_rxFlow hretire)

theorem State.fillBlocks_rxFlow {s t : State} {k : Nat} {data : List Byte}
    (h : State.fillBlocks k data s = some t) : t.rxFlow = s.rxFlow := by
  obtain ⟨-, hevents, -⟩ := State.fillBlocks_rest h
  exact congrArg (List.foldl rxFlowStep _) hevents

/-- A TX command that leaves the ring alone keeps the order of the received bytes, its answer included. -/
theorem State.rxFlowInv.answer_of_isTx {s t : State} {i : Instr} {inp : List Byte} (hs : s.rxFlowInv)
    (hframe : s.txFrame t) (hflow : t.rxFlow = s.rxFlow) (hi : i.isTx = true) :
    (t.answer i .ok inp []).rxFlowInv := by
  obtain ⟨hcfg, hrx, -⟩ := hframe
  have hwindow : (t.answer i .ok inp []).rxWindow = s.rxWindow := State.rxWindow_congr hcfg hrx
  rwa [State.rxFlowInv, State.rxFlow_answer, rxFlowStep_of_isTx hi, hflow, hwindow]

/-- A push that is accepted puts its byte at the end of the window (40_rx_ring.md R83). -/
theorem State.rxStore_rxFlowInv {s t : State} {b : Byte} (hI : s.rxInv) (hs : s.rxFlowInv)
    (hroom : s.rx.count ≠ s.cfg.rc) (h : s.rxStore b = some t) :
    (t.answer (.rxpush b) .ok [] []).rxFlowInv := by
  have hwindow : t.rxWindow = s.rxWindow ++ [b] := State.rxStore_window hI hroom h
  have hflow : t.rxFlow = s.rxFlow := by
    obtain ⟨-, rfl⟩ := State.rxStore_eq_some.mp h
    rfl
  rw [State.rxFlowInv, State.rxFlow_answer, hflow]
  show s.rxFlow.accepted ++ [b] = s.rxFlow.delivered ++ t.rxWindow
  rw [hwindow, hs, List.append_assoc]

/-- A pop delivers the front of the window (40_rx_ring.md R86). -/
theorem State.rxDrop_rxFlowInv {s : State} {n : Nat} (hs : s.rxFlowInv) (hn : n ≤ s.rx.count) :
    ((s.rxDrop n).answer (.rxpop n) .ok [] (s.rxRun n)).rxFlowInv := by
  obtain ⟨hdrop, htake⟩ := State.rxDrop_window hn
  rw [State.rxFlowInv, State.rxFlow_answer]
  show s.rxFlow.accepted = s.rxFlow.delivered ++ s.rxRun n ++ (s.rxDrop n).rxWindow
  rw [hdrop, htake, List.append_assoc, List.take_append_drop, hs]

/-- Every command keeps the order of the received bytes. -/
theorem exec_rxFlowInv {i : Instr} {s t : State} (hI : s.Inv) (hs : s.rxFlowInv) (h : exec i s = .next t) :
    t.rxFlowInv := by
  obtain ⟨-, -, hrx, -⟩ := hI
  rcases exec_cases h with ⟨st, herr, rfl, -⟩ | ⟨rfl, rfl⟩ | ⟨b, r, rfl, hroom, hstore, rfl⟩ |
    ⟨n, rfl, hn, -, rfl⟩ | ⟨rfl, rfl⟩ | ⟨n, r, u, rfl, -, -, -, -, hfill, hpump, rfl⟩ | ⟨u, rfl, hpump, rfl⟩ |
    ⟨r, u, rfl, -, hretire, harm, rfl⟩ | ⟨p, b, rfl, -, rfl⟩
  · rw [State.rxFlowInv, State.raise, State.rxFlow_answer, rxFlowStep_of_error herr]
    exact hs
  · rw [State.rxFlowInv, State.rxFlow_answer]
    rfl
  · exact State.rxStore_rxFlowInv hrx hs hroom hstore
  · exact State.rxDrop_rxFlowInv hs hn
  · exact hs.answer_of_isTx (t := s.txClear) (State.txFrame_refl s) rfl rfl
  · exact hs.answer_of_isTx ((State.fillBlocks_frame hfill).trans (State.pump_frame hpump))
      ((State.pump_rxFlow hpump).trans (State.fillBlocks_rxFlow hfill)) rfl
  · exact hs.answer_of_isTx (State.pump_frame hpump) (State.pump_rxFlow hpump) rfl
  · have hflow := State.retire_rxFlow hretire
    have hframe := State.retire_frame hretire
    exact hs.answer_of_isTx (hframe.trans (State.armOrIdle_frame harm)) ((State.armOrIdle_rxFlow harm).trans hflow)
      rfl
  · rw [State.rxFlowInv, State.rxFlow_append (s := s) rfl]
    rfl

/-- Settles O25: the invariant of the block gives the ring's, under which a push appends to the window and a pop
takes from its front. -/
theorem stepKeepsTheReceiveOrder : Obligations.StepKeepsTheReceiveOrder := by
  intro s t hI hs h
  exact step_keeps_of_inv (P := fun u => u.rxFlowInv) (fun _ _ _ hu => hu) (fun _ => rfl)
    (fun _ _ _ huI hu hexec => exec_rxFlowInv huI hu hexec) hI hs h

/-! ### Transmitted bytes keep their order (R49, 41_tx_queue.md R117) -/

/-- An error neither accepts nor delivers a transmitted byte. -/
theorem txFlowStep_of_error {r : Response} (h : r.status ≠ .ok) (f : ByteFlow) :
    txFlowStep f (.returned r) = f := by
  simp only [txFlowStep]
  split <;> simp_all

/-- The answer of an RX command is no part of the flow of transmitted bytes. -/
theorem txFlowStep_of_isRx {r : Response} (h : r.cmd.isRx = true) (f : ByteFlow) :
    txFlowStep f (.returned r) = f := by
  obtain ⟨cmd, st, inp, out⟩ := r
  cases cmd with
  | rxrst | rxpush _ | rxpop _ => rfl
  | txrst | txenq _ | txpump | txdone | chOpen _ _ => exact absurd h nofun

theorem State.txFlow_answer (s : State) (i : Instr) (st : Status) (inp out : List Byte) :
    (s.answer i st inp out).txFlow = txFlowStep s.txFlow (.returned ⟨i, st, inp, out⟩) :=
  State.txFlow_append (s.answer_events i st inp out)

theorem State.waitingBytes_answer (s : State) (i : Instr) (st : Status) (inp out : List Byte) :
    (s.answer i st inp out).waitingBytes = s.waitingBytes := rfl

theorem State.waitingBytes_of_transmitting {s : State} (h : s.tx.dmaState = .transmitting) :
    s.waitingBytes = s.queuedFrom 1 := by rw [State.waitingBytes, if_pos h]

theorem State.waitingBytes_of_not_transmitting {s : State} (h : s.tx.dmaState ≠ .transmitting) :
    s.waitingBytes = s.queuedFrom 0 := by rw [State.waitingBytes, if_neg h]

/-- Nothing waits in an empty queue. -/
theorem State.waitingBytes_of_empty {s : State} (h : s.tx.count = 0) : s.waitingBytes = [] :=
  State.queuedFrom_of_empty h _

/-- From `s` to `t` no byte is accepted, and the bytes armed, then the bytes waiting, are those armed before, then
`waiting`: bytes only move from waiting to armed. -/
abbrev State.txFlowKept (s t : State) (waiting : List Byte) : Prop :=
  t.txFlow.accepted = s.txFlow.accepted ∧ t.txFlow.delivered ++ t.waitingBytes = s.txFlow.delivered ++ waiting

/-- Arming delivers the oldest block and leaves the rest of the queue waiting (41_tx_queue.md R111); going idle
happens with nothing queued. -/
theorem State.armOrIdle_txFlow {s t : State} (htail : s.tx.tail < s.cfg.nb) (h : s.armOrIdle = some t) :
    s.txFlowKept t (s.queuedFrom 0) := by
  rcases State.armOrIdle_eq_some.mp h with ⟨-, rfl⟩ | ⟨hcount, harm⟩
  · exact ⟨rfl, congrArg _ (State.waitingBytes_of_not_transmitting nofun)⟩
  · obtain ⟨-, rfl⟩ := State.arm_eq_some.mp harm
    rw [State.txFlowKept, State.waitingBytes_of_transmitting rfl, State.txFlow_append (s := s) rfl,
      State.queuedFrom_zero hcount htail, ← List.append_assoc]
    exact ⟨rfl, rfl⟩

/-- Between commands, where nothing is to retire, the pump step keeps the order. -/
theorem State.pump_txFlow {s t : State} (htail : s.tx.tail < s.cfg.nb) (hrest : s.tx.dmaState ≠ .transferDone)
    (h : s.pump = some t) : s.txFlowKept t s.waitingBytes := by
  rcases State.pump_eq_some.mp h with ⟨-, rfl⟩ | ⟨hd, harm⟩ | ⟨hd, -⟩
  · exact ⟨rfl, rfl⟩
  · rw [State.waitingBytes_of_not_transmitting (by simp [hd])]
    exact State.armOrIdle_txFlow htail harm
  · exact absurd hd hrest

/-- A completion retires the block in flight, which is armed already, and the next one is armed
(41_tx_queue.md R115). -/
theorem State.retire_armOrIdle_txFlow {s r t : State} (hI : s.txInv) (hretire : s.retire = some r)
    (harm : r.armOrIdle = some t) : s.txFlowKept t (s.queuedFrom 1) := by
  have hcount : 1 ≤ s.tx.count := (State.retire_eq_some.mp hretire).1.2
  obtain ⟨r', hr', ⟨-, -, htail, -⟩, -, -, hqueued, -⟩ := State.retire_spec hI hcount
  obtain rfl := Option.some.inj (hr'.symm.trans hretire)
  have hflow : r'.txFlow = s.txFlow := State.txFlow_append (State.retire_events hretire)
  have hkept := State.armOrIdle_txFlow htail harm
  rwa [State.txFlowKept, hflow, hqueued] at hkept

/-- Filling the blocks of a request that fits puts its data behind what waits (41_tx_queue.md R101, R105). -/
theorem State.fillBlocks_waiting {s t : State} {len : Nat} {data : List Byte} (hbs : 1 ≤ s.cfg.bs)
    (hI : s.txInv) (hrest : s.restInv) (hlen : data.length = len)
    (hfit : s.tx.count + blocksNeeded s.cfg.bs len ≤ s.cfg.nb)
    (h : State.fillBlocks (blocksNeeded s.cfg.bs len) data s = some t) :
    t.waitingBytes = s.waitingBytes ++ data := by
  obtain ⟨hhi, hlo⟩ := blocksNeeded_bounds (len := len) hbs
  obtain ⟨t', ht', -, -, -, -, -, hqueued, -⟩ :=
    State.fillBlocks_spec _ data s hbs hI hfit (hlen ▸ hlo) (hlen ▸ hhi)
  obtain rfl := Option.some.inj (ht'.symm.trans h)
  obtain ⟨-, -, -, hstate, -⟩ := State.fillBlocks_rest h
  obtain ⟨-, htransmitting, -⟩ := hrest
  rw [State.waitingBytes, State.waitingBytes, hstate]
  refine hqueued _ ?_
  split
  next hd => exact (htransmitting hd).1
  next => exact Nat.zero_le _

/-- An accepted request's bytes are the last of those that wait or have been armed (41_tx_queue.md R101). -/
theorem State.fillBlocks_pump_txFlowInv {s r t : State} {len : Nat} {data : List Byte} (hbs : 1 ≤ s.cfg.bs)
    (hI : s.txInv) (hrest : s.restInv) (hs : s.txFlowInv) (hlen : data.length = len)
    (hfit : s.tx.count + blocksNeeded s.cfg.bs len ≤ s.cfg.nb)
    (hfill : State.fillBlocks (blocksNeeded s.cfg.bs len) data s = some r) (hpump : r.pump = some t) :
    (t.answer (.txenq len) .ok data []).txFlowInv := by
  obtain ⟨-, hevents, htl, hstate, -⟩ := State.fillBlocks_rest hfill
  have hcfg : r.cfg = s.cfg := (State.fillBlocks_frame hfill).1
  have hflow : r.txFlow = s.txFlow := congrArg (List.foldl txFlowStep _) hevents
  have ⟨_, _, htail, _⟩ := hI
  have ⟨_, _, hdone⟩ := hrest
  obtain ⟨hacc, hdel⟩ := State.pump_txFlow (by rwa [htl, hcfg]) (by rwa [hstate]) hpump
  rw [hflow] at hacc hdel
  rw [State.txFlowInv, State.txFlow_answer, State.waitingBytes_answer]
  show t.txFlow.accepted ++ data = t.txFlow.delivered ++ t.waitingBytes
  rw [hdel, hacc, hs, State.fillBlocks_waiting hbs hI hrest hlen hfit hfill, List.append_assoc]

/-- Where no byte is accepted and bytes only move from waiting to armed, the order is kept. -/
theorem State.txFlowInv.of_kept {s t : State} (hs : s.txFlowInv) (h : s.txFlowKept t s.waitingBytes) :
    t.txFlowInv := by
  obtain ⟨hacc, hdel⟩ := h
  rw [State.txFlowInv, hacc, hdel, hs]

/-- Every command keeps the order of the transmitted bytes. -/
theorem exec_txFlowInv {i : Instr} {s t : State} (hI : s.Inv) (hs : s.txFlowInv) (h : exec i s = .next t) :
    t.txFlowInv := by
  obtain ⟨-, -, -, htx, hrest, -⟩ := hI
  have ⟨_, _, htail, _⟩ := htx
  have ⟨_, _, hdone⟩ := hrest
  rcases exec_cases h with ⟨st, herr, rfl, -⟩ | ⟨rfl, rfl⟩ | ⟨b, r, rfl, -, hstore, rfl⟩ | ⟨n, rfl, -, -, rfl⟩ |
    ⟨rfl, rfl⟩ | ⟨n, r, u, rfl, -, hbs, hfit, hpay, hfill, hpump, rfl⟩ | ⟨u, rfl, hpump, rfl⟩ |
    ⟨r, u, rfl, hd, hretire, harm, rfl⟩ | ⟨p, b, rfl, -, rfl⟩
  · rw [State.txFlowInv, State.raise, State.txFlow_answer, txFlowStep_of_error herr]
    exact hs
  · rw [State.txFlowInv, State.txFlow_answer, txFlowStep_of_isRx rfl]
    exact hs
  · obtain ⟨-, rfl⟩ := State.rxStore_eq_some.mp hstore
    rw [State.txFlowInv, State.txFlow_answer, txFlowStep_of_isRx rfl]
    exact hs
  · rw [State.txFlowInv, State.txFlow_answer, txFlowStep_of_isRx rfl]
    exact hs
  · rw [State.txFlowInv, State.txFlow_answer, State.waitingBytes_of_empty rfl]
    rfl
  · exact State.fillBlocks_pump_txFlowInv hbs htx hrest hs (List.length_take_of_le hpay) hfit hfill hpump
  · rw [State.txFlowInv, State.txFlow_answer]
    exact hs.of_kept (State.pump_txFlow htail hdone hpump)
  · have htx' : State.txInv { s with tx := { s.tx with dmaState := .transferDone } } := htx
    have hkept := State.retire_armOrIdle_txFlow htx' hretire harm
    rw [State.txFlowInv, State.txFlow_answer]
    refine hs.of_kept ?_
    rw [State.waitingBytes_of_transmitting hd]
    exact hkept
  · rw [State.txFlowInv, State.txFlow_append (s := s) rfl, State.waitingBytes_of_empty rfl]
    rfl

/-- Settles O39: a request accepted goes behind what waits, and an arm moves the oldest block from waiting to
armed; nothing waits when the queue is empty. -/
theorem stepKeepsTheTransmitOrder : Obligations.StepKeepsTheTransmitOrder := by
  intro s t hI hs h
  have ht : t.txFlowInv :=
    step_keeps_of_inv (P := fun u => u.txFlowInv) (fun _ _ _ hu => hu) (fun _ => rfl)
      (fun _ _ _ huI hu hexec => exec_txFlowInv huI hu hexec) hI hs h
  refine ⟨ht, fun hcount => ?_⟩
  rw [ht, State.waitingBytes_of_empty hcount, List.append_nil]

/-! ### The block in flight is not written (R52, R53) -/

theorem State.txTrace_answer (s : State) (i : Instr) (st : Status) (inp out : List Byte) :
    (s.answer i st inp out).txTrace = s.txTrace :=
  (txTrace_emit s _).trans (List.append_nil _)

/-- A command's answer is no arm. -/
theorem State.inFlightInv.answer {s : State} {i : Instr} {st : Status} {inp out : List Byte}
    (hs : s.inFlightInv) : (s.answer i st inp out).inFlightInv := by
  rw [State.inFlightInv, State.txTrace_answer]
  exact hs

/-- After an arm the trace ends with what the engine reads (41_tx_queue.md R111). -/
theorem State.armOrIdle_inFlightInv {s t : State} (h : s.armOrIdle = some t) : t.inFlightInv := by
  intro hd
  rcases State.armOrIdle_eq_some.mp h with ⟨-, rfl⟩ | ⟨-, harm⟩
  · exact absurd hd nofun
  · obtain ⟨-, rfl⟩ := State.arm_eq_some.mp harm
    rw [State.txTrace_append (s := s) rfl]
    exact List.getLast?_concat

theorem State.pump_inFlightInv {s t : State} (hs : s.inFlightInv) (h : s.pump = some t) : t.inFlightInv := by
  rcases State.pump_eq_some.mp h with ⟨-, rfl⟩ | ⟨-, harm⟩ | ⟨-, r, -, harm⟩
  · exact hs
  · exact State.armOrIdle_inFlightInv harm
  · exact State.armOrIdle_inFlightInv harm

/-- A request that fits writes only free slots, so no byte of a queued one (41_tx_queue.md R105). -/
theorem State.fillBlocks_read_queued {s t : State} {len : Nat} {data : List Byte} (hbs : 1 ≤ s.cfg.bs)
    (hI : s.txInv) (hlen : data.length = len) (hfit : s.tx.count + blocksNeeded s.cfg.bs len ≤ s.cfg.nb)
    (h : State.fillBlocks (blocksNeeded s.cfg.bs len) data s = some t) {j i : Nat} (hj : j < s.tx.count)
    (hi : i < s.cfg.bs) : t.txRead (s.txAddr (s.slotAt j) i) = s.txRead (s.txAddr (s.slotAt j) i) := by
  obtain ⟨hhi, hlo⟩ := blocksNeeded_bounds (len := len) hbs
  obtain ⟨t', ht', -, -, -, -, -, -, -, hread, -⟩ :=
    State.fillBlocks_spec _ data s hbs hI hfit (hlen ▸ hlo) (hlen ▸ hhi)
  obtain rfl := Option.some.inj (ht'.symm.trans h)
  refine hread _ fun p hp he => ?_
  have hblock : p / s.cfg.bs < blocksNeeded s.cfg.bs len := (Nat.div_lt_iff_lt_mul hbs).mpr (by omega)
  have hslot := (txAddr_inj hi (Nat.mod_lt p hbs) he).1
  rw [hI.head_add] at hslot
  generalize p / s.cfg.bs = q at hblock hslot
  have := State.slotAt_inj (by omega) (by omega) hslot
  omega

theorem State.fillBlocks_inFlightInv {s t : State} {len : Nat} {data : List Byte} (hI : s.Inv)
    (hs : s.inFlightInv) (hlen : data.length = len) (hfit : s.tx.count + blocksNeeded s.cfg.bs len ≤ s.cfg.nb)
    (h : State.fillBlocks (blocksNeeded s.cfg.bs len) data s = some t) : t.inFlightInv := by
  obtain ⟨⟨-, -, hbs, -⟩, -, -, htx, ⟨-, htransmitting, -⟩, -, hle⟩ := hI
  have ⟨_, _, htail, _⟩ := htx
  obtain ⟨hdma, hevents, -, hstate, -⟩ := State.fillBlocks_rest h
  have hcfg : t.cfg = s.cfg := (State.fillBlocks_frame h).1
  have htrace : t.txTrace = s.txTrace := congrArg (List.filterMap Event.arm?) hevents
  intro hd
  rw [hstate] at hd
  obtain ⟨hcount, -, -, hblk, -⟩ := htransmitting hd
  have hbytes : t.dmaBytes = s.dmaBytes := by
    rw [State.dmaBytes, State.dmaBytes, State.dmaAddr, State.dmaAddr, hdma, hcfg, hblk, ← State.slotAt_zero htail]
    refine List.map_congr_left fun i hi => ?_
    have hlt : i < s.cfg.bs := Nat.lt_of_lt_of_le (List.mem_range.mp hi) hle
    exact State.fillBlocks_read_queued hbs htx hlen hfit h hcount hlt
  rw [htrace, hdma, hbytes]
  exact hs hd

/-- Every command keeps the bytes of the block in flight, or arms another, or ends the transfer. -/
theorem exec_inFlightInv {i : Instr} {s t : State} (hI : s.Inv) (hs : s.inFlightInv) (h : exec i s = .next t) :
    t.inFlightInv := by
  rcases exec_cases h with ⟨st, -, rfl, -⟩ | ⟨-, rfl⟩ | ⟨b, r, -, -, hstore, rfl⟩ | ⟨n, -, -, -, rfl⟩ |
    ⟨-, rfl⟩ | ⟨n, r, u, -, -, -, hfit, hpay, hfill, hpump, rfl⟩ | ⟨u, -, hpump, rfl⟩ |
    ⟨r, u, -, -, -, harm, rfl⟩ | ⟨p, b, -, -, rfl⟩
  · exact hs.answer
  · exact State.inFlightInv.answer (s := s.rxClear) hs
  · obtain ⟨-, rfl⟩ := State.rxStore_eq_some.mp hstore
    exact State.inFlightInv.answer hs
  · exact State.inFlightInv.answer (s := s.rxDrop n) hs
  · exact nofun
  · have hfilled := State.fillBlocks_inFlightInv hI hs (List.length_take_of_le hpay) hfit hfill
    exact (State.pump_inFlightInv hfilled hpump).answer
  · exact (State.pump_inFlightInv hs hpump).answer
  · exact (State.armOrIdle_inFlightInv harm).answer
  · exact nofun

/-- Settles O42: the only command that writes TXMEM while a block is in flight is `TXENQ`, and it writes free
slots. -/
theorem stepKeepsTheBytesInFlight : Obligations.StepKeepsTheBytesInFlight := by
  intro s t hI hs h
  exact step_keeps_of_inv (P := fun u => u.inFlightInv) (fun _ _ _ hu => hu) (fun _ => nofun)
    (fun _ _ _ huI hu hexec => exec_inFlightInv huI hu hexec) hI hs h

/-! ### No access outside a memory is formed (R43) -/

/-- A `TXENQ` whose payload is missing ends with an error or with the environment's fault. -/
theorem exec_txenq_short_ne_unformable {s : State} {len : Nat} (hbs : 1 ≤ s.cfg.bs) (h : s.appIn.length < len) :
    exec (.txenq len) s ≠ .fault .unformable := by
  have hbs' : s.cfg.bs ≠ 0 := by omega
  simp only [exec, execTxenq, if_neg hbs', if_pos h]
  split_ifs <;> simp

/-- No command forms such an access: it completes if the environment does its part, and if not it stops before
any access. -/
theorem exec_ne_unformable {s : State} (hI : s.Inv) (i : Instr) : exec i s ≠ .fault .unformable := by
  cases hduty : s.dutiful i with
  | true =>
    obtain ⟨t, ht⟩ := dutifulEnvironmentNeverStopsTheBlock i s hI hduty
    simp [ht]
  | false =>
    obtain ⟨⟨-, -, hbs, -⟩, -⟩ := hI
    cases i with
    | txenq len => exact exec_txenq_short_ne_unformable hbs (Nat.lt_of_not_le (of_decide_eq_false hduty))
    | txdone =>
      have hd : s.tx.dmaState ≠ .transmitting := of_decide_eq_false hduty
      simp [exec, execTxdone, hd]
    | rxrst | rxpush _ | rxpop _ | txrst | txpump | chOpen _ _ => exact absurd hduty nofun

/-- Settles O15: the step waits, resets, refuses, stops for a completion nothing caused, or runs a command. -/
theorem noOutOfRangeAccessIsFormed : Obligations.NoOutOfRangeAccessIsFormed := by
  intro s hI
  cases htake : takeFirst s.delivers s.inputs with
  | none => simp [step_of_take_none htake]
  | some y =>
    obtain ⟨x, rest⟩ := y
    cases x with
    | rst => simp [step_of_take_rst htake]
    | command r =>
      rw [step_of_take_command htake]
      cases decode r.port r.word with
      | invalid why => simp
      | command i =>
        have htaken : State.Inv { s with inputs := rest, appIn := r.appIn } := hI
        dsimp only
        split
        · simp
        · exact exec_ne_unformable htaken i

/-! ### The canonical form of a memory (R40) -/

/-- With rising addresses, a cell is in the list exactly when its address reads as its byte. -/
theorem Mem.find_eq_some_iff {m : Mem} (h : m.Pairwise (fun c d => c.1 < d.1)) {a : Nat} {v : Byte} :
    Mem.find m a = some v ↔ (a, v) ∈ m := by
  induction m with
  | nil => simp [Mem.find]
  | cons c m ih =>
    obtain ⟨hc, hm⟩ := List.pairwise_cons.mp h
    rw [Mem.find, List.mem_cons]
    split
    next heq =>
      subst heq
      have hnot : (c.1, v) ∉ m := fun hmem => Nat.lt_irrefl _ (hc (c.1, v) hmem)
      simp [hnot, Prod.ext_iff, eq_comm]
    next hne =>
      have hother : (a, v) ≠ c := fun he => hne (he ▸ rfl)
      simp [ih hm, hother]

/-- The cells of a memory in canonical form are its reads that differ from the unlisted value. -/
theorem Mem.wf.mem_iff {u : Option Byte} {n : Nat} {m : Mem} (h : Mem.wf u n m) {a : Nat} {v : Byte} :
    (a, v) ∈ m ↔ (Mem.find m a).or u = some v ∧ u ≠ some v := by
  obtain ⟨hrising, hcells⟩ := h
  rw [← Mem.find_eq_some_iff hrising]
  constructor
  · intro hfind
    exact ⟨by rw [hfind]; rfl, (hcells _ ((Mem.find_eq_some_iff hrising).mp hfind)).2⟩
  · rintro ⟨hread, hu⟩
    cases hfind : Mem.find m a with
    | none =>
      rw [hfind] at hread
      exact absurd hread hu
    | some w => rwa [hfind] at hread

/-- Settles O54: two such lists have the same cells, and both list them by rising address. -/
theorem canonicalMemoriesAreEqualWhenReadsAgree : Obligations.CanonicalMemoriesAreEqualWhenReadsAgree := by
  intro u n m m' hm hm' hreads
  have : Std.Irrefl (fun c d : Host.Cell => c.1 < d.1) := ⟨fun _ => Nat.lt_irrefl _⟩
  have : Std.Antisymm (fun c d : Host.Cell => c.1 < d.1) := ⟨fun _ _ hcd hdc => absurd hdc (Nat.lt_asymm hcd)⟩
  have ⟨hrising, _⟩ := hm
  have ⟨hrising', _⟩ := hm'
  refine hrising.eq_of_mem_iff hrising' fun c => ?_
  rw [Mem.wf.mem_iff hm, Mem.wf.mem_iff hm', hreads]

end Sys2Proof.Machine

/-! The statements of 30_encoding.md: the encoder and the decoder undo each other, the rows of the opcode map select
their commands, the operands are slices of the word, and exactly the invalid words are refused. -/

namespace Sys2Proof

/-! ### Words of a shape (R61 to R65) -/

/-- An operand or-ed into the clear low bits of a word is added to it. -/
theorem toNat_or_setWidth {k : Nat} (hk : k ≤ 32) {m : Word} (hm : m.toNat % 2 ^ k = 0) (b : BitVec k) :
    (m ||| b.setWidth 32).toNat = m.toNat + b.toNat := by
  have hb : (b.setWidth 32).toNat = b.toNat := BitVec.toNat_setWidth_of_le hk
  rw [or_toNat_of_low hm (hb ▸ b.isLt), hb]

/-- A number that fits its field is added by the encoder. -/
theorem toNat_or_ofNat {k n : Nat} (hk : k ≤ 32) (hn : n < 2 ^ k) {m : Word} (hm : m.toNat % 2 ^ k = 0) :
    (m ||| (BitVec.ofNat k n).setWidth 32).toNat = m.toNat + n := by
  rw [toNat_or_setWidth hk hm, BitVec.toNat_ofNat, Nat.mod_eq_of_lt hn]

/-- The pin of an `OPEN` stands above its 24 bits of baud rate (R65). -/
theorem toNat_pin_shiftLeft {pin : Nat} (h : pin < 16) :
    ((BitVec.ofNat 4 pin).setWidth 32 <<< 24).toNat = pin * 2 ^ 24 := by
  simp only [BitVec.toNat_shiftLeft, BitVec.toNat_setWidth, BitVec.toNat_ofNat, Nat.shiftLeft_eq]
  omega

/-- The encoder puts the opcode and every operand in range where the format says. -/
theorem wordShape_encode {i : Instr} (h : i.wf = true) : wordShape (encode i).toNat i := by
  cases i with
  | rxrst | txrst | txpump | txdone => rfl
  | rxpush b => exact toNat_or_setWidth (by decide) (by decide) b
  | rxpop len | txenq len =>
    have hlen : len < 2 ^ 16 := Nat.lt_succ_of_le (of_decide_eq_true h)
    exact ⟨toNat_or_ofNat (by decide) hlen (by decide), hlen⟩
  | chOpen pin baud =>
    obtain ⟨hpin, hbaud⟩ : pin ≤ 15 ∧ baud ≤ 16777215 := by simpa [Instr.wf] using h
    have hshift := toNat_pin_shiftLeft (pin := pin) (by omega)
    have hhigh : (0x80000000#32 ||| (BitVec.ofNat 4 pin).setWidth 32 <<< 24).toNat = 8 * 2 ^ 28 + pin * 2 ^ 24 := by
      rw [or_toNat_of_low (k := 28) (by decide) (by omega), hshift]
      rfl
    refine ⟨?_, by omega, by omega⟩
    rw [encode, toNat_or_ofNat (by decide) (by omega) (by omega), hhigh]

/-- Operands that stand in their fields are in range. -/
theorem wf_of_wordShape {n : Nat} {i : Instr} (h : wordShape n i) : i.wf = true := by
  cases i with
  | rxrst | rxpush _ | txrst | txpump | txdone => rfl
  | rxpop len | txenq len =>
    obtain ⟨-, hlen⟩ := h
    exact decide_eq_true (Nat.le_of_lt_succ hlen)
  | chOpen pin baud =>
    obtain ⟨-, hpin, hbaud⟩ := h
    simp only [Instr.wf, Bool.and_eq_true, decide_eq_true_eq]
    omega

/-! ### Encoding and decoding -/

/-- Settles O1: the encoded word has the shape of its command, which is what the decoder reads. -/
theorem decodeOfEncodeIsTheCommand : Obligations.DecodeOfEncodeIsTheCommand :=
  fun _ hwf => decode_eq_command.mpr ⟨decodeWord_eq_command.mpr (wordShape_encode hwf), rfl⟩

/-- Settles O2: the word and the encoding of what it decodes to have one shape, so they are one word. -/
theorem encodeOfDecodeIsTheWord : Obligations.EncodeOfDecodeIsTheWord := by
  intro p w i hdec
  obtain ⟨hword, hport⟩ := decode_eq_command.mp hdec
  have hshape := decodeWord_eq_command.mp hword
  have hwf := wf_of_wordShape hshape
  exact ⟨wordShape_inj (wordShape_encode hwf) hshape, hwf, hport⟩

/-- Settles O4: the shape of the word places each operand, and its bound makes it the slice. -/
theorem operandsAreSlicesOfTheWord : Obligations.OperandsAreSlicesOfTheWord := by
  intro w
  simp only [decodeWord_eq_command, wordShape]
  refine ⟨fun byte h => ?_, fun len h => ?_, fun len h => ?_, fun pin baud h => ?_⟩
  · have hb := byte.isLt
    apply BitVec.eq_of_toNat_eq
    rw [← byteField, byteField_toNat]
    omega
  all_goals omega

/-- Settles O6, word by word. -/
theorem sampleWordsDecode : Obligations.SampleWordsDecode := by
  unfold Obligations.SampleWordsDecode
  decide

/-! ### The opcode map (R62) -/

/-- The words under a mask of all bits from `k` up, for a `match` word with none below, are those that agree with it
there. -/
theorem and_highMask_eq_iff {k : Nat} {mask v : Word} (hmask : mask = BitVec.allOnes 32 <<< k)
    (hv : v.toNat % 2 ^ k = 0) (w : Word) : w &&& mask = v ↔ w.toNat / 2 ^ k = v.toNat / 2 ^ k := by
  have hand : (w &&& mask).toNat = w.toNat / 2 ^ k * 2 ^ k := by
    rw [hmask, ← BitVec.shiftLeft_ushiftRight, BitVec.toNat_shiftLeft, BitVec.toNat_ushiftRight, Nat.shiftLeft_eq,
      Nat.shiftRight_eq_div_pow]
    exact Nat.mod_eq_of_lt ((Nat.div_mul_le_self _ _).trans_lt w.isLt)
  have hdvd : v.toNat / 2 ^ k * 2 ^ k = v.toNat := Nat.div_mul_cancel (Nat.dvd_of_mod_eq_zero hv)
  rw [← BitVec.toNat_inj, hand, ← hdvd, Nat.mul_left_inj (Nat.two_pow_pos k).ne', hdvd]

/-- A row of format N: no operand, every bit compared. -/
theorem and_maskN_eq_iff (w v : Word) : w &&& 0xFFFFFFFF#32 = v ↔ w.toNat = v.toNat := by
  simpa using and_highMask_eq_iff (k := 0) (mask := 0xFFFFFFFF#32) (v := v) rfl (Nat.mod_one _) w

/-- A row of format L: the words that agree from bit 16 up are those with some `len` below it. -/
theorem and_maskL_eq_iff {v : Word} (hv : v.toNat % 2 ^ 16 = 0) (w : Word) :
    w &&& 0xFFFF0000#32 = v ↔ ∃ len, w.toNat = v.toNat + len ∧ len < 2 ^ 16 := by
  refine (and_highMask_eq_iff (k := 16) rfl hv w).trans ?_
  exact ⟨fun h => ⟨w.toNat % 2 ^ 16, by omega⟩, fun ⟨len, h⟩ => by omega⟩

/-- The row of format B: the words that agree from bit 8 up are those with some `byte` below it. -/
theorem and_maskB_eq_iff {v : Word} (hv : v.toNat % 2 ^ 8 = 0) (w : Word) :
    w &&& 0xFFFFFF00#32 = v ↔ ∃ byte : Byte, w.toNat = v.toNat + byte.toNat := by
  refine (and_highMask_eq_iff (k := 8) rfl hv w).trans ?_
  constructor
  · intro h
    refine ⟨byteField w, ?_⟩
    rw [byteField_toNat]
    omega
  · rintro ⟨byte, h⟩
    have hb := byte.isLt
    omega

/-- The row of format O: the words that agree from bit 28 up are those with some `pin` and `baud` below it. -/
theorem and_maskO_eq_iff {v : Word} (hv : v.toNat % 2 ^ 28 = 0) (w : Word) :
    w &&& 0xF0000000#32 = v ↔
      ∃ pin baud, w.toNat = v.toNat + pin * 2 ^ 24 + baud ∧ pin < 16 ∧ baud < 2 ^ 24 := by
  refine (and_highMask_eq_iff (k := 28) rfl hv w).trans ?_
  exact ⟨fun h => ⟨w.toNat / 2 ^ 24 % 16, w.toNat % 2 ^ 24, by omega⟩, fun ⟨pin, baud, h⟩ => by omega⟩

/-- Settles O3: under its mask a row compares the opcode and the must-be-zero bits, so it leaves the words of its
shape. -/
theorem wordIsCommandIffMaskMatches : Obligations.WordIsCommandIffMaskMatches := by
  constructor
  · intro w
    simp only [decodeWord_eq_command]
    exact ⟨and_maskN_eq_iff w _, and_maskB_eq_iff (by decide) w, and_maskL_eq_iff (by decide) w,
      and_maskN_eq_iff w _, and_maskL_eq_iff (by decide) w, and_maskN_eq_iff w _, and_maskN_eq_iff w _,
      and_maskO_eq_iff (by decide) w⟩
  · intro p w i
    rw [decode_eq_command, eq_comm (a := i.port)]
    cases i <;> exact Iff.rfl

/-! ### Invalid words (R67) -/

/-- The `op` column of the opcode map (R62). -/
def Instr.opcode : Instr → Nat
  | .rxrst => 1
  | .rxpush _ => 2
  | .rxpop _ => 3
  | .txrst => 4
  | .txenq _ => 5
  | .txpump => 6
  | .txdone => 7
  | .chOpen _ _ => 8

/-- A word of a command's shape has the command's opcode. -/
theorem opcode_of_wordShape {n : Nat} {i : Instr} (h : wordShape n i) : n / 2 ^ 28 = i.opcode := by
  cases i with
  | rxpush b =>
    have hb := b.isLt
    simp only [wordShape, Instr.opcode] at h ⊢
    omega
  | _ =>
    simp only [wordShape, Instr.opcode] at h ⊢
    omega

/-- A port accepts the opcodes of its own commands and no others (R66). -/
theorem portAdmits_opcode_iff (p : Port) (i : Instr) : Machine.portAdmits p i.opcode = true ↔ i.port = p := by
  cases i <;> cases p <;> simp [Machine.portAdmits, Instr.opcode, Instr.port]

/-- The words of some shape: an assigned opcode, and the must-be-zero bits of its format are 0 (R61, R62). -/
theorem exists_wordShape_iff {n : Nat} : (∃ i, wordShape n i) ↔
    ((n / 2 ^ 28 = 1 ∨ n / 2 ^ 28 = 4 ∨ n / 2 ^ 28 = 6 ∨ n / 2 ^ 28 = 7) ∧ n % 2 ^ 28 = 0) ∨
    (n / 2 ^ 28 = 2 ∧ n % 2 ^ 28 / 2 ^ 8 = 0) ∨
    ((n / 2 ^ 28 = 3 ∨ n / 2 ^ 28 = 5) ∧ n % 2 ^ 28 / 2 ^ 16 = 0) ∨ n / 2 ^ 28 = 8 := by
  constructor
  · rintro ⟨i, h⟩
    have hop := opcode_of_wordShape h
    cases i with
    | rxpush b =>
      have hb := b.isLt
      simp only [wordShape, Instr.opcode] at h hop
      omega
    | _ =>
      simp only [wordShape, Instr.opcode] at h hop
      omega
  · rintro (⟨hop | hop | hop | hop, hzero⟩ | ⟨hop, hzero⟩ | ⟨hop | hop, hzero⟩ | hop)
    · exact ⟨.rxrst, by simp only [wordShape]; omega⟩
    · exact ⟨.txrst, by simp only [wordShape]; omega⟩
    · exact ⟨.txpump, by simp only [wordShape]; omega⟩
    · exact ⟨.txdone, by simp only [wordShape]; omega⟩
    · exact ⟨.rxpush (BitVec.ofNat 8 n), by simp only [wordShape, BitVec.toNat_ofNat]; omega⟩
    · exact ⟨.rxpop (n % 2 ^ 16), by simp only [wordShape]; omega⟩
    · exact ⟨.txenq (n % 2 ^ 16), by simp only [wordShape]; omega⟩
    · exact ⟨.chOpen (n / 2 ^ 24 % 16) (n % 2 ^ 24), by simp only [wordShape]; omega⟩

/-- A port's decoder answers a command exactly for the words of some shape whose opcode the port accepts. -/
theorem exists_decode_eq_command_iff {p : Port} {w : Word} : (∃ i, decode p w = .command i) ↔
    (∃ i, wordShape w.toNat i) ∧ Machine.portAdmits p (w.toNat / 2 ^ 28) = true := by
  simp only [decode_eq_command, decodeWord_eq_command, ← portAdmits_opcode_iff]
  constructor
  · rintro ⟨i, hshape, hport⟩
    exact ⟨⟨i, hshape⟩, opcode_of_wordShape hshape ▸ hport⟩
  · rintro ⟨⟨i, hshape⟩, hport⟩
    exact ⟨i, hshape, opcode_of_wordShape hshape ▸ hport⟩

/-- A taken word is refused exactly when its port's decoder answers no command: a command is never refused. -/
theorem step_refused_iff {s : Machine.State} {r : Machine.Request} {rest : List Machine.Input}
    (h : Machine.takeFirst s.delivers s.inputs = some (.command r, rest)) :
    (∃ why, Machine.step s = .refused why) ↔ ¬ ∃ i, decode r.port r.word = .command i := by
  rw [Machine.step_of_take_command h]
  cases decode r.port r.word with
  | invalid why => simp
  | command i =>
    dsimp only
    split
    · simp
    · simp [Machine.exec_ne_refused]

/-- Settles O5: a word is refused when it has no command's shape or an opcode its port does not accept. -/
theorem invalidWordsAndOnlyTheyAreRefused : Obligations.InvalidWordsAndOnlyTheyAreRefused := by
  intro s r rest htake
  have hw := r.word.isLt
  rw [step_refused_iff htake, exists_decode_eq_command_iff, exists_wordShape_iff]
  dsimp only
  cases Machine.portAdmits r.port (r.word.toNat / 2 ^ 28) with
  | false => simp
  | true =>
    simp only [and_true, Bool.true_eq_false, or_false]
    omega

end Sys2Proof

/-! The statements of 40_rx_ring.md: what `RXRST`, `RXPUSH` and `RXPOP` write and answer, that a pop delivers the bytes
in the order pushed, and that an RX command touches the ring alone. -/

namespace Sys2Proof.Machine

/-! ### `RXRST` (R81) -/

/-- Settles O17: the cleared ring lists no byte, and clearing it again changes nothing. -/
theorem rxrstClearsTheRing : Obligations.RxrstClearsTheRing := by
  refine ⟨rfl, decodeOfEncodeIsTheCommand .rxrst rfl, fun s => ⟨_, exec_rxrst s, ?_⟩⟩
  have hfull (hrc : 0 < s.cfg.rc) : s.rxClear.rxFull = false :=
    Bool.eq_false_iff.mpr fun h => absurd (s.rxClear.rxFull_iff.mp h) hrc.ne
  exact ⟨State.rxRead_of_mem_nil rfl, rfl, rfl, rfl, rfl, hfull, rfl, _, exec_rxrst _, rfl⟩

/-! ### `RXPUSH` (R83, R84) -/

/-- What `RXPUSH` does to a ring with room whose head is a slot. -/
theorem exec_rxpush_stores {s : State} (hroom : s.rx.count ≠ s.cfg.rc) (hhead : s.rx.head < s.cfg.rc) (b : Byte) :
    exec (.rxpush b) s = .next { s with
      rx := ⟨Mem.write rxUnlisted s.rx.mem s.rx.head b, (s.rx.head + 1) % s.cfg.rc, s.rx.tail, s.rx.count + 1⟩
      events := s.events ++ [.returned ⟨.rxpush b, .ok, [], []⟩] } := by
  rw [exec_rxpush_ok hroom]
  exact formed_map_of_eq_some (State.rxStore_eq_some.mpr ⟨hhead, rfl⟩) _

/-- Settles O18: a full ring is the error, and otherwise RXMEM is written at the head alone. -/
theorem rxpushStoresOrOverflows : Obligations.RxpushStoresOrOverflows := by
  intro b
  refine ⟨rfl, decodeOfEncodeIsTheCommand (.rxpush b) rfl, fun s => ⟨fun hfull => exec_rxpush_full hfull b, ?_⟩⟩
  intro hroom hhead
  exact ⟨_, exec_rxpush_stores hroom hhead b, fun a => State.rxRead_write s _ s.rx.head a b rfl, rfl, rfl, rfl, rfl,
    State.rxFull_iff _, rfl⟩

/-! ### `RXPOP` (R86 to R88) -/

theorem encode_rxpop {len : Nat} (h : len ≤ 65535) : encode (.rxpop len) = 0x30000000#32 ||| BitVec.ofNat 32 len := by
  rw [encode, BitVec.setWidth_ofNat_of_le_of_lt (by decide) (Nat.lt_succ_of_le h)]

/-- The `i`-th byte a pop delivers (R86). -/
theorem State.getElem?_rxRun (s : State) {len i : Nat} (h : i < len) :
    (s.rxRun len)[i]? = some (s.rxRead ((s.rx.tail + i) % s.cfg.rc)) := by
  simp [State.rxRun, h]

/-- Settles O19: too few bytes is the error, and otherwise the run from the tail is delivered and dropped. -/
theorem rxpopDeliversOrUnderflows : Obligations.RxpopDeliversOrUnderflows := by
  refine fun len => ⟨fun hlen => ?_, fun s => ⟨exec_rxpop_short, fun hcount hrc => ?_⟩⟩
  · rw [← encode_rxpop hlen]
    exact ⟨rfl, decodeOfEncodeIsTheCommand (.rxpop len) (decide_eq_true hlen)⟩
  · refine ⟨_, _, exec_rxpop_ok hcount hrc, s.length_rxRun len, fun i hi => s.getElem?_rxRun hi, rfl, rfl, rfl,
      Nat.sub_add_cancel hcount, fun hpos hle => Bool.eq_false_iff.mpr fun hfull => ?_, ?_, rfl⟩
    · have : s.rx.count - len = s.cfg.rc := (State.rxFull_iff _).mp hfull
      omega
    · rw [State.rxEmpty_iff]
      show s.rx.count - len = 0 ↔ _
      omega

/-- The run of a pop wraps at most once: it is a copy from the tail and a copy from address 0 (R87). -/
theorem State.rxRun_eq_copies {s : State} {len : Nat} (htail : s.rx.tail < s.cfg.rc) (hlen : len ≤ s.cfg.rc) :
    s.rxRun len =
      ((List.range (min len (s.cfg.rc - s.rx.tail))).map fun i => s.rxRead (s.rx.tail + i)) ++
      ((List.range (len - min len (s.cfg.rc - s.rx.tail))).map fun i => s.rxRead i) := by
  generalize hfirst : min len (s.cfg.rc - s.rx.tail) = first
  generalize hsecond : len - first = second
  obtain rfl : len = first + second := by omega
  rw [State.rxRun, List.range_add, List.map_append, List.map_map]
  congr 1
  · refine List.map_congr_left fun i hi => ?_
    have := List.mem_range.mp hi
    rw [Nat.mod_eq_of_lt (by omega)]
  · refine List.map_congr_left fun i hi => ?_
    have := List.mem_range.mp hi
    have hwrap : s.rx.tail + (first + i) = s.cfg.rc + i := by omega
    simp only [Function.comp_apply]
    rw [hwrap, Nat.add_mod_left, Nat.mod_eq_of_lt (by omega)]

/-- Settles O20, by where the run of a pop wraps. -/
theorem rxpopIsOneOrTwoContiguousCopies : Obligations.RxpopIsOneOrTwoContiguousCopies := by
  rintro len s ⟨hcount, -, htail, -⟩ hlen
  rw [← State.rxRun_eq_copies htail (hlen.trans hcount)]
  exact ⟨_, exec_rxpop_ok hlen (Nat.zero_lt_of_lt htail), rfl⟩

theorem State.rxDrop_zero {s : State} (htail : s.rx.tail < s.cfg.rc) : s.rxDrop 0 = s := by
  simp [State.rxDrop, Nat.mod_eq_of_lt htail]

/-- Settles O21: dropping no byte changes nothing, a ring never holds more than RC bytes, and dropping all RC leaves
the tail where the head equation puts the head. -/
theorem rxpopBoundaryLengths : Obligations.RxpopBoundaryLengths := by
  rintro s ⟨hcount, -, htail, hhead⟩
  have hrc : 1 ≤ s.cfg.rc := Nat.zero_lt_of_lt htail
  refine ⟨?_, fun len hlen => exec_rxpop_short (hcount.trans_lt hlen), fun hfull => ?_⟩
  · rw [exec_rxpop_ok (Nat.zero_le _) hrc, State.rxDrop_zero htail]
    rfl
  · have htailhead : (s.rx.tail + s.cfg.rc) % s.cfg.rc = s.rx.head := by rw [hhead, hfull]
    have hwindow : s.rxRun s.cfg.rc = s.rxWindow := by rw [State.rxWindow, hfull]
    rw [← hwindow]
    exact ⟨_, exec_rxpop_ok hfull.ge hrc, Nat.sub_eq_zero_of_le hcount, htailhead, rfl⟩

/-! ### Bytes come out in the order pushed (R89) -/

theorem execAll_append {is : List Instr} {s t : State} (h : execAll is s = .next t) (js : List Instr) :
    execAll (is ++ js) s = execAll js t := by
  induction is generalizing s with
  | nil => rw [← Host.Outcome.next.inj h, List.nil_append]
  | cons i is ih =>
    rw [List.cons_append, execAll]
    rw [execAll] at h
    cases hi : exec i s with
    | next r =>
      rw [hi] at h
      exact ih h
    | fault f => simp [hi] at h
    | refused f => simp [hi] at h

/-- A push into a ring with room appends its byte to the window. -/
theorem exec_rxpush_appends {s : State} (hI : s.rxInv) (hroom : s.rx.count < s.cfg.rc) (b : Byte) :
    ∃ t, exec (.rxpush b) s = .next t ∧ t.cfg = s.cfg ∧ t.rxInv ∧ t.rxWindow = s.rxWindow ++ [b] ∧
      t.events = s.events ++ [.returned ⟨.rxpush b, .ok, [], []⟩] := by
  have ⟨_, hhead, _, _⟩ := hI
  obtain ⟨r, hr⟩ : ∃ r, s.rxStore b = some r := ⟨_, State.rxStore_eq_some.mpr ⟨hhead, rfl⟩⟩
  have hrI : r.rxInv := State.rxStore_rxInv hI hroom.ne hr
  have hwindow : r.rxWindow = s.rxWindow ++ [b] := State.rxStore_window hI hroom.ne hr
  have hexec : exec (.rxpush b) s = .next (r.answer (.rxpush b) .ok [] []) := by
    rw [exec_rxpush_ok hroom.ne]
    exact formed_map_of_eq_some hr _
  obtain ⟨-, rfl⟩ := State.rxStore_eq_some.mp hr
  exact ⟨_, hexec, rfl, hrI, hwindow, rfl⟩

/-- Pushes that fit append their bytes to the window, in order. -/
theorem execAll_rxpush_appends (bytes : List Byte) {s : State} (hI : s.rxInv)
    (hfit : s.rx.count + bytes.length ≤ s.cfg.rc) :
    ∃ t, execAll (bytes.map Instr.rxpush) s = .next t ∧ t.cfg = s.cfg ∧ t.rxWindow = s.rxWindow ++ bytes ∧
      t.events = s.events ++ bytes.map fun b => Event.returned ⟨.rxpush b, .ok, [], []⟩ := by
  induction bytes generalizing s with
  | nil => exact ⟨s, rfl, rfl, (List.append_nil _).symm, (List.append_nil _).symm⟩
  | cons b bytes ih =>
    rw [List.length_cons] at hfit
    obtain ⟨r, hexec, hcfg, hrI, hwindow, hevents⟩ := exec_rxpush_appends hI (by omega) b
    have hcount : r.rx.count = s.rx.count + 1 := by simpa using congrArg List.length hwindow
    obtain ⟨t, hall, htcfg, htwindow, htevents⟩ := ih hrI (by rw [hcount, hcfg]; omega)
    refine ⟨t, ?_, htcfg.trans hcfg, ?_, ?_⟩
    · rw [List.map_cons, execAll, hexec]
      exact hall
    · rw [htwindow, hwindow, List.append_assoc, List.singleton_append]
    · rw [htevents, hevents, List.append_assoc, List.singleton_append, List.map_cons]

/-- Settles O22: the pushes make the window the bytes pushed, and the pop delivers the window. -/
theorem popReturnsTheBytesInTheOrderPushed : Obligations.PopReturnsTheBytesInTheOrderPushed := by
  intro s bytes hI hempty hfit
  have ⟨_, hhead, _, _⟩ := hI
  obtain ⟨t, hpush, hcfg, hwindow, hevents⟩ := execAll_rxpush_appends bytes hI (by omega)
  have hstart : s.rxWindow = [] := List.length_eq_zero_iff.mp (s.length_rxWindow.trans hempty)
  rw [hstart, List.nil_append] at hwindow
  have hcount : t.rx.count = bytes.length := by rw [← t.length_rxWindow, hwindow]
  have hrun : t.rxRun bytes.length = bytes := by rw [← hcount]; exact hwindow
  have hpop := exec_rxpop_ok hcount.ge (hcfg ▸ Nat.zero_lt_of_lt hhead)
  rw [hrun] at hpop
  refine ⟨(t.rxDrop bytes.length).answer (.rxpop bytes.length) .ok [] bytes, ?_, Nat.sub_eq_zero_of_le hcount.le, ?_⟩
  · rw [execAll_append hpush, execAll, hpop]
    rfl
  · rw [← hevents]
    rfl

/-! ### The ring and the TX queue do not meet (R80) -/

/-- `s` with another ring and other events emitted before. -/
abbrev State.withRing (s : State) (rx : RxRing) (es : List Event) : State := { s with rx := rx, events := es }

/-- An RX command reads only the configuration and the ring and writes only the ring: in any state `o` given those of
`s` it does the same and answers alike. -/
theorem exec_isRx_local {i : Instr} {s t : State} (hi : i.isRx = true) (h : exec i s = .next t) :
    ∃ r, ∀ o : State, exec i { o with cfg := s.cfg, rx := s.rx } =
      .next { o with cfg := s.cfg, rx := t.rx, events := o.events ++ [.returned r] } := by
  rcases exec_cases h with ⟨st, -, rfl, herr⟩ | ⟨rfl, rfl⟩ | ⟨b, r, rfl, hroom, hstore, rfl⟩ |
    ⟨n, rfl, hn, hrc, rfl⟩ | ⟨rfl, -⟩ | ⟨n, r, u, rfl, -⟩ | ⟨u, rfl, -⟩ | ⟨r, u, rfl, -⟩ | ⟨p, b, rfl, -⟩
  · rcases herr with ⟨b, rfl, rfl, hfull⟩ | ⟨n, rfl, rfl, hshort⟩ | ⟨rfl, -⟩ | ⟨n, rfl, -⟩ | ⟨p, b, rfl, -⟩
    · exact ⟨_, fun o => exec_rxpush_full (s := { o with cfg := s.cfg, rx := s.rx }) hfull b⟩
    · exact ⟨_, fun o => exec_rxpop_short (s := { o with cfg := s.cfg, rx := s.rx }) hshort⟩
    all_goals exact absurd hi nofun
  · exact ⟨_, fun o => exec_rxrst _⟩
  · obtain ⟨hhead, rfl⟩ := State.rxStore_eq_some.mp hstore
    exact ⟨_, fun o => exec_rxpush_stores (s := { o with cfg := s.cfg, rx := s.rx }) hroom hhead b⟩
  · exact ⟨⟨.rxpop n, .ok, [], s.rxRun n⟩, fun o => exec_rxpop_ok (s := { o with cfg := s.cfg, rx := s.rx }) hn hrc⟩
  all_goals exact absurd hi nofun

/-- An RX command writes the ring and its answer alone, both the same in every state with the configuration and the
ring of `s`. -/
theorem exec_isRx_spec {i : Instr} {s t : State} (hi : i.isRx = true) (h : exec i s = .next t) :
    ∃ r, t = s.withRing t.rx (s.events ++ [.returned r]) ∧ ∀ s' : State, s'.cfg = s.cfg → s'.rx = s.rx →
      exec i s' = .next (s'.withRing t.rx (s'.events ++ [.returned r])) := by
  obtain ⟨r, hr⟩ := exec_isRx_local hi h
  refine ⟨r, Host.Outcome.next.inj (h.symm.trans (hr s)), fun s' hcfg hrx => ?_⟩
  have hother := hr s'
  rwa [← hcfg, ← hrx] at hother

/-- From `s` to `t` the operation neither reads nor writes the ring or what was emitted before; it may emit more. -/
abbrev RingBlindAt (f : State → Option State) (s t : State) : Prop :=
  ∃ more, ∀ (rx : RxRing) (es : List Event), f (s.withRing rx es) = some (t.withRing rx (es ++ more))

/-- The operation never meets the ring. -/
abbrev RingBlind (f : State → Option State) : Prop := ∀ s t, f s = some t → RingBlindAt f s t

/-- An operation that emits nothing. -/
theorem RingBlindAt.of_silent {f : State → Option State} {s t : State}
    (h : ∀ (rx : RxRing) (es : List Event), f (s.withRing rx es) = some (t.withRing rx es)) : RingBlindAt f s t := by
  refine ⟨[], fun rx es => ?_⟩
  rw [List.append_nil]
  exact h rx es

theorem RingBlind.bind {f g : State → Option State} (hf : RingBlind f) (hg : RingBlind g) :
    RingBlind fun s => (f s).bind g := by
  intro s u h
  obtain ⟨t, hft, hgu⟩ := Option.bind_eq_some_iff.mp h
  obtain ⟨more, hmore⟩ := hf s t hft
  obtain ⟨more', hmore'⟩ := hg t u hgu
  refine ⟨more ++ more', fun rx es => Option.bind_eq_some_iff.mpr ⟨_, hmore rx es, ?_⟩⟩
  rw [← List.append_assoc]
  exact hmore' rx (es ++ more)

theorem State.retire_ringBlind : RingBlind State.retire := by
  intro s t h
  obtain ⟨hslot, rfl⟩ := State.retire_eq_some.mp h
  exact ⟨[.dmaClr], fun rx es => State.retire_eq_some.mpr ⟨hslot, rfl⟩⟩

theorem State.arm_ringBlind : RingBlind State.arm := by
  intro s t h
  obtain ⟨hslot, rfl⟩ := State.arm_eq_some.mp h
  exact ⟨[.armed ⟨s.tx.tail, s.usedAt s.tx.tail, s.slotBytes s.tx.tail (s.usedAt s.tx.tail)⟩],
    fun rx es => State.arm_eq_some.mpr ⟨hslot, rfl⟩⟩

theorem State.armOrIdle_ringBlind : RingBlind State.armOrIdle := by
  intro s t h
  rcases State.armOrIdle_eq_some.mp h with ⟨hcount, rfl⟩ | ⟨hcount, harm⟩
  · exact .of_silent fun rx es => State.armOrIdle_eq_some.mpr (.inl ⟨hcount, rfl⟩)
  · obtain ⟨more, hmore⟩ := State.arm_ringBlind s t harm
    exact ⟨more, fun rx es => State.armOrIdle_eq_some.mpr (.inr ⟨hcount, hmore rx es⟩)⟩

theorem State.pump_ringBlind : RingBlind State.pump := by
  intro s t h
  rcases State.pump_eq_some.mp h with ⟨hd, rfl⟩ | ⟨hd, harm⟩ | ⟨hd, r, hretire, harm⟩
  · exact .of_silent fun rx es => State.pump_eq_some.mpr (.inl ⟨hd, rfl⟩)
  · obtain ⟨more, hmore⟩ := State.armOrIdle_ringBlind s t harm
    exact ⟨more, fun rx es => State.pump_eq_some.mpr (.inr (.inl ⟨hd, hmore rx es⟩))⟩
  · obtain ⟨more, hmore⟩ := State.retire_ringBlind.bind State.armOrIdle_ringBlind s t
      (Option.bind_eq_some_iff.mpr ⟨r, hretire, harm⟩)
    exact ⟨more, fun rx es => State.pump_eq_some.mpr (.inr (.inr ⟨hd, Option.bind_eq_some_iff.mp (hmore rx es)⟩))⟩

theorem State.fillBlock_ringBlind (bytes : List Byte) : RingBlind fun s => s.fillBlock bytes := by
  intro s t h
  obtain ⟨hslot, rfl⟩ := State.fillBlock_eq_some.mp h
  exact .of_silent fun rx es => State.fillBlock_eq_some.mpr ⟨hslot, rfl⟩

theorem State.fillBlocks_ringBlind (k : Nat) (data : List Byte) : RingBlind (State.fillBlocks k data) := by
  induction k generalizing data with
  | zero =>
    intro s t h
    obtain rfl := State.fillBlocks_zero.mp h
    exact .of_silent fun rx es => rfl
  | succ k ih =>
    intro s t h
    exact (State.fillBlock_ringBlind (data.take s.cfg.bs)).bind (ih (data.drop s.cfg.bs)) s t h

/-- A command that ends with its answer is as blind as its operation. -/
theorem RingBlindAt.formed_answer {f : State → Option State} {s u : State} (h : RingBlindAt f s u) (i : Instr)
    (inp : List Byte) : ∃ more, ∀ (rx : RxRing) (es : List Event),
      formed ((f (s.withRing rx es)).map fun t => t.answer i .ok inp []) =
        .next ((u.answer i .ok inp []).withRing rx (es ++ more)) := by
  obtain ⟨more, hmore⟩ := h
  refine ⟨more ++ [.returned ⟨i, .ok, inp, []⟩], fun rx es => ?_⟩
  rw [formed_map_of_eq_some (hmore rx es), ← List.append_assoc]
  rfl

/-- A TX command neither reads nor writes the ring, and the events before it have no part in it. -/
theorem exec_isTx_ringBlind {i : Instr} {s t : State} (hi : i.isTx = true) (h : exec i s = .next t) :
    ∃ more, ∀ (rx : RxRing) (es : List Event), exec i (s.withRing rx es) = .next (t.withRing rx (es ++ more)) := by
  rcases exec_cases h with ⟨st, -, rfl, herr⟩ | ⟨rfl, -⟩ | ⟨b, r, rfl, -⟩ | ⟨n, rfl, -⟩ | ⟨rfl, rfl⟩ |
    ⟨n, r, u, rfl, hn, hbs, hfit, hpay, hfill, hpump, rfl⟩ | ⟨u, rfl, hpump, rfl⟩ |
    ⟨r, u, rfl, hd, hretire, harm, rfl⟩ | ⟨p, b, rfl, -⟩
  · rcases herr with ⟨b, rfl, -⟩ | ⟨n, rfl, -⟩ | ⟨rfl, rfl⟩ | ⟨n, rfl, hn, hbs, rfl, hfull⟩ | ⟨p, b, rfl, -⟩
    · exact absurd hi nofun
    · exact absurd hi nofun
    · exact ⟨_, fun rx es => exec_txenq_zero (s.withRing rx es)⟩
    · exact ⟨_, fun rx es => exec_txenq_full (s := s.withRing rx es) hn hbs hfull⟩
    · exact absurd hi nofun
  · exact absurd hi nofun
  · exact absurd hi nofun
  · exact absurd hi nofun
  · exact ⟨_, fun rx es => exec_txrst (s.withRing rx es)⟩
  · obtain ⟨more, hmore⟩ := ((State.fillBlocks_ringBlind _ _).bind State.pump_ringBlind s u
      (Option.bind_eq_some_iff.mpr ⟨r, hfill, hpump⟩)).formed_answer (.txenq n) (s.appIn.take n)
    exact ⟨more, fun rx es => (exec_txenq_ok (s := s.withRing rx es) hn hbs hfit hpay).trans (hmore rx es)⟩
  · exact (State.pump_ringBlind s u hpump).formed_answer .txpump []
  · obtain ⟨more, hmore⟩ := (State.pump_ringBlind _ u
      (State.pump_eq_some.mpr (.inr (.inr ⟨rfl, r, hretire, harm⟩)))).formed_answer .txdone []
    exact ⟨more, fun rx es => (exec_txdone_ok (s := s.withRing rx es) hd).trans (hmore rx es)⟩
  · exact absurd hi nofun

/-- An answer put before or after other events arms nothing. -/
theorem txTrace_eq_of_returned_swapped {s t : State} {es more : List Event} {r r' : Response}
    (hs : s.events = es ++ [.returned r] ++ more) (ht : t.events = es ++ more ++ [.returned r']) :
    t.txTrace = s.txTrace := by
  simp [State.txTrace, hs, ht, Event.arm?, List.filterMap_cons]

/-- Settles O26: the RX command runs by the configuration and the ring alone, which a TX command keeps, and the TX
command by all but the ring. -/
theorem rxCommandsTouchOnlyTheRing : Obligations.RxCommandsTouchOnlyTheRing := by
  intro i hi
  refine ⟨fun s t h => ?_, fun s s' t hcfg hrx h => ?_, fun j s t u hj hexec hexecTx => ?_⟩
  · obtain ⟨r, ht, -⟩ := exec_isRx_spec hi h
    exact ⟨r, ht⟩
  · obtain ⟨r, ht, hother⟩ := exec_isRx_spec hi h
    exact ⟨r, congrArg State.events ht, hother s' hcfg hrx⟩
  · obtain ⟨r, ht, hother⟩ := exec_isRx_spec hi hexec
    obtain ⟨more, hmore⟩ := exec_isTx_ringBlind hj hexecTx
    have hfirst : exec j s = .next (u.withRing s.rx (s.events ++ more)) := by
      have := hmore s.rx s.events
      rwa [ht] at this
    have hcfg : u.cfg = s.cfg := (exec_cfg hexecTx).trans (exec_cfg hexec)
    have hu : u = u.withRing t.rx (t.events ++ more) := Host.Outcome.next.inj (hexecTx.symm.trans (hmore t.rx t.events))
    refine ⟨_, _, hfirst, hother _ hcfg rfl, ⟨rfl, (congrArg State.rx hu).symm, rfl, rfl, rfl⟩,
      txTrace_eq_of_returned_swapped (es := s.events) (more := more) (r := r) ?_ rfl⟩
    rw [hu, ht]

end Sys2Proof.Machine

/-! The statements of 41_tx_queue.md: which command arms and retires a block and when, what `TXENQ` writes, and that a
request drains block by block. -/

namespace Sys2Proof.Machine

/-! ### `TXRST` (R96) -/

/-- Settles O29: the cleared queue holds no block, and the answer is no arm. -/
theorem txrstClearsTheQueue : Obligations.TxrstClearsTheQueue := by
  refine ⟨rfl, decodeOfEncodeIsTheCommand .txrst rfl, fun s => ⟨_, exec_txrst s, rfl, rfl, fun hnb => ?_, ?_⟩⟩
  · exact Bool.eq_false_iff.mpr fun h => absurd (s.txClear.txFull_iff.mp h) hnb.ne
  · exact State.txTrace_answer s.txClear _ _ _ _

/-! ### The commands that pump (R101, R108, R115) -/

/-- `TXPUMP` is the pump step and its answer (R108). -/
theorem exec_txpump_of_pump {s t : State} (h : s.pump = some t) :
    exec .txpump s = .next (t.answer .txpump .ok [] []) := formed_map_of_eq_some h _

/-- An accepted `TXENQ` is the blocks it fills, the pump step and its answer (R101). -/
theorem exec_txenq_of_pump {s r u : State} {len : Nat} (hl : 1 ≤ len) (hbs : 1 ≤ s.cfg.bs)
    (hfit : s.tx.count + blocksNeeded s.cfg.bs len ≤ s.cfg.nb) (hpay : len ≤ s.appIn.length)
    (hfill : State.fillBlocks (blocksNeeded s.cfg.bs len) (s.appIn.take len) s = some r) (hpump : r.pump = some u) :
    exec (.txenq len) s = .next (u.answer (.txenq len) .ok (s.appIn.take len) []) := by
  rw [exec_txenq_ok hl hbs hfit hpay]
  exact formed_map_of_eq_some (Option.bind_eq_some_iff.mpr ⟨r, hfill, hpump⟩) _

/-- `s` when the engine has signalled the completion and the pump step has not run (R115). -/
abbrev State.completed (s : State) : State := { s with tx := { s.tx with dmaState := .transferDone } }

/-- `TXDONE` is the pump step from `TransferDone` and its answer (R115). -/
theorem exec_txdone_of_pump {s t : State} (hd : s.tx.dmaState = .transmitting) (h : s.completed.pump = some t) :
    exec .txdone s = .next (t.answer .txdone .ok [] []) :=
  (exec_txdone_ok hd).trans (formed_map_of_eq_some h _)

/-! ### The pump step leaves a transfer alone (R113, R114) -/

theorem State.pump_of_transmitting {s : State} (h : s.tx.dmaState = .transmitting) : s.pump = some s :=
  State.pump_eq_some.mpr (.inl ⟨h, rfl⟩)

/-- An idle block whose engine is off goes idle by changing nothing. -/
theorem State.goIdle_eq_self {s : State} (hd : s.tx.dmaState = .idle) (hen : s.dma.en = false) : s.goIdle = s := by
  rw [State.goIdle, ← hd, ← hen]

/-- The rest-state lemma (R23) leaves the pump step nothing to do (R114). -/
theorem State.restInv.pump {s : State} (h : s.restInv) : s.pump = some s := by
  obtain ⟨hidle, -, hdone⟩ := h
  cases hd : s.tx.dmaState with
  | idle =>
    obtain ⟨hcount, hen⟩ := hidle hd
    exact State.pump_eq_some.mpr (.inr (.inl ⟨hd,
      State.armOrIdle_eq_some.mpr (.inl ⟨hcount, (State.goIdle_eq_self hd hen).symm⟩)⟩))
  | transmitting => exact State.pump_of_transmitting hd
  | transferDone => exact absurd hd hdone

/-- Settles O34: the row `Transmitting` of the pump step is empty. -/
theorem pumpDoesNothingWhileTransmitting : Obligations.PumpDoesNothingWhileTransmitting := fun _ hd =>
  have hpump := State.pump_of_transmitting hd
  ⟨hpump, exec_txpump_of_pump hpump⟩

/-! ### Who arms (R113, R114, 70_reset_and_hazards.md R179) -/

theorem State.armOrIdle_txTrace {s t : State} (h : s.armOrIdle = some t) :
    t.txTrace = s.txTrace ∨ ∃ e, t.txTrace = s.txTrace ++ [e] := by
  rcases State.armOrIdle_events h with ⟨-, -, hevents⟩ | ⟨-, -, hevents⟩
  · exact .inl (congrArg (List.filterMap Event.arm?) hevents)
  · exact .inr ⟨_, State.txTrace_append hevents⟩

theorem State.retire_txTrace {s t : State} (h : s.retire = some t) : t.txTrace = s.txTrace :=
  (State.txTrace_append (State.retire_events h)).trans (List.append_nil _)

theorem State.fillBlocks_txTrace {s t : State} {k : Nat} {data : List Byte}
    (h : State.fillBlocks k data s = some t) : t.txTrace = s.txTrace := by
  obtain ⟨-, hevents, -⟩ := State.fillBlocks_rest h
  exact congrArg (List.filterMap Event.arm?) hevents

/-- The pump step arms at most one block, and none while one is in flight. -/
theorem State.pump_txTrace {s t : State} (h : s.pump = some t) :
    t.txTrace = s.txTrace ∨ s.tx.dmaState ≠ .transmitting ∧ ∃ e, t.txTrace = s.txTrace ++ [e] := by
  rcases State.pump_eq_some.mp h with ⟨-, rfl⟩ | ⟨hd, harm⟩ | ⟨hd, r, hretire, harm⟩
  · exact .inl rfl
  · exact (State.armOrIdle_txTrace harm).imp_right fun he => ⟨by simp [hd], he⟩
  · rw [← State.retire_txTrace hretire]
    exact (State.armOrIdle_txTrace harm).imp_right fun he => ⟨by simp [hd], he⟩

/-- A command arms at most one block; `TXENQ` and `TXPUMP` can do so while none is in flight, `TXDONE` at any time. -/
theorem exec_txTrace {i : Instr} {s t : State} (h : exec i s = .next t) :
    t.txTrace = s.txTrace ∨ (∃ e, t.txTrace = s.txTrace ++ [e]) ∧
      (i = .txdone ∨ s.tx.dmaState ≠ .transmitting ∧ ((∃ n, i = .txenq n) ∨ i = .txpump)) := by
  rcases exec_cases h with ⟨st, -, rfl, -⟩ | ⟨-, rfl⟩ | ⟨b, r, -, -, hstore, rfl⟩ | ⟨n, -, -, -, rfl⟩ |
    ⟨-, rfl⟩ | ⟨n, r, u, rfl, -, -, -, -, hfill, hpump, rfl⟩ | ⟨u, rfl, hpump, rfl⟩ |
    ⟨r, u, rfl, -, hretire, harm, rfl⟩ | ⟨p, b, -, -, rfl⟩
  · exact .inl (State.txTrace_answer ..)
  · exact .inl (State.txTrace_answer s.rxClear ..)
  · obtain ⟨-, rfl⟩ := State.rxStore_eq_some.mp hstore
    exact .inl (State.txTrace_answer ..)
  · exact .inl (State.txTrace_answer (s.rxDrop n) ..)
  · exact .inl (State.txTrace_answer s.txClear ..)
  · obtain ⟨-, -, -, hstate, -⟩ := State.fillBlocks_rest hfill
    rw [State.txTrace_answer, ← State.fillBlocks_txTrace hfill, ← hstate]
    exact (State.pump_txTrace hpump).imp_right fun ⟨hd, he⟩ => ⟨he, .inr ⟨hd, .inl ⟨n, rfl⟩⟩⟩
  · rw [State.txTrace_answer]
    exact (State.pump_txTrace hpump).imp_right fun ⟨hd, he⟩ => ⟨he, .inr ⟨hd, .inr rfl⟩⟩
  · have hsame : r.txTrace = s.txTrace := (State.retire_txTrace hretire :)
    rw [State.txTrace_answer, ← hsame]
    exact (State.armOrIdle_txTrace harm).imp_right fun he => ⟨he, .inl rfl⟩
  · exact .inl ((State.txTrace_append (s := s) rfl).trans (List.append_nil _))

/-- Settles O35: at rest the pump step changes nothing, so only the two others that pump can arm. -/
theorem txpumpIsInertBetweenCommands : Obligations.TxpumpIsInertBetweenCommands := by
  have hinert (s : State) (hrest : s.restInv) := exec_txpump_of_pump hrest.pump
  refine ⟨hinert, fun i s t hrest h hne => ?_⟩
  obtain ⟨-, rfl | ⟨-, hlen | rfl⟩⟩ := (exec_txTrace h).resolve_left hne
  · exact .inr rfl
  · exact .inl hlen
  · obtain rfl := Host.Outcome.next.inj ((hinert s hrest).symm.trans h)
    exact absurd (State.txTrace_answer ..) hne

/-- `TXDONE` retires a block first: the first thing it emits is the pulse (R110, R115). -/
theorem exec_txdone_events {s t : State} (h : exec .txdone s = .next t) :
    ∃ more, t.events = s.events ++ .dmaClr :: more := by
  rcases exec_cases h with ⟨st, -, -, herr⟩ | ⟨hi, -⟩ | ⟨b, r, hi, -⟩ | ⟨n, hi, -⟩ | ⟨hi, -⟩ | ⟨n, r, u, hi, -⟩ |
    ⟨u, hi, -⟩ | ⟨r, u, -, -, hretire, harm, rfl⟩ | ⟨p, b, hi, -⟩
  case inl => simp at herr
  case inr.inr.inr.inr.inr.inr.inr.inl =>
    have hpulse : r.events = s.events ++ [.dmaClr] := (State.retire_events hretire :)
    rcases State.armOrIdle_events harm with ⟨-, -, hevents⟩ | ⟨-, -, hevents⟩ <;>
      simp [hevents, hpulse]
  all_goals exact absurd hi nofun

/-- Settles O53: in `Transmitting` the pump step of a `TXENQ` or a `TXPUMP` does nothing. -/
theorem atMostOneBlockIsInFlight : Obligations.AtMostOneBlockIsInFlight := by
  intro i s t h
  refine ⟨?_, fun hd hne => ?_⟩
  · rcases exec_txTrace h with hsame | ⟨⟨e, harmed⟩, -⟩
    · simp [hsame]
    · simp [harmed]
  · obtain ⟨-, rfl | ⟨hnot, -⟩⟩ := (exec_txTrace h).resolve_left hne
    · obtain ⟨more, hevents⟩ := exec_txdone_events h
      refine ⟨rfl, ?_⟩
      rw [hevents, List.drop_left]
      exact List.mem_cons_self
    · exact absurd hd hnot

/-! ### The TX commands and the rest of the block (R95) -/

theorem State.txFrame.eq_with {s t : State} (h : s.txFrame t) :
    t = { s with tx := t.tx, dma := t.dma, events := t.events } := by
  obtain ⟨hcfg, hrx, hch, hin, happ, hres⟩ := h
  rw [← hcfg, ← hrx, ← hch, ← hin, ← happ, ← hres]

theorem State.txFrame.answer {s t : State} {i : Instr} {st : Status} {inp out : List Byte} (h : s.txFrame t) :
    s.txFrame (t.answer i st inp out) := h

/-- `s` with another ring and another channel. -/
abbrev State.withPeers (s : State) (rx : RxRing) (ch : Channel) : State := { s with rx := rx, ch := ch }

theorem State.armOrIdle_withPeers {s t : State} (h : s.armOrIdle = some t) (rx : RxRing) (ch : Channel) :
    (s.withPeers rx ch).armOrIdle = some (t.withPeers rx ch) := by
  refine State.armOrIdle_eq_some.mpr ?_
  rcases State.armOrIdle_eq_some.mp h with ⟨hcount, rfl⟩ | ⟨hcount, harm⟩
  · exact .inl ⟨hcount, rfl⟩
  · obtain ⟨hslot, rfl⟩ := State.arm_eq_some.mp harm
    exact .inr ⟨hcount, State.arm_eq_some.mpr ⟨hslot, rfl⟩⟩

theorem State.pump_withPeers {s t : State} (h : s.pump = some t) (rx : RxRing) (ch : Channel) :
    (s.withPeers rx ch).pump = some (t.withPeers rx ch) := by
  refine State.pump_eq_some.mpr ?_
  rcases State.pump_eq_some.mp h with ⟨hd, rfl⟩ | ⟨hd, harm⟩ | ⟨hd, r, hretire, harm⟩
  · exact .inl ⟨hd, rfl⟩
  · exact .inr (.inl ⟨hd, State.armOrIdle_withPeers harm rx ch⟩)
  · have harm' := State.armOrIdle_withPeers harm rx ch
    obtain ⟨hslot, rfl⟩ := State.retire_eq_some.mp hretire
    exact .inr (.inr ⟨hd, _, State.retire_eq_some.mpr ⟨hslot, rfl⟩, harm'⟩)

theorem State.fillBlocks_withPeers {s t : State} {k : Nat} {data : List Byte}
    (h : State.fillBlocks k data s = some t) (rx : RxRing) (ch : Channel) :
    State.fillBlocks k data (s.withPeers rx ch) = some (t.withPeers rx ch) := by
  induction k generalizing s data with
  | zero =>
    obtain rfl := State.fillBlocks_zero.mp h
    rfl
  | succ k ih =>
    obtain ⟨r, hr, ht⟩ := State.fillBlocks_succ.mp h
    have ht' := ih ht
    obtain ⟨hslot, rfl⟩ := State.fillBlock_eq_some.mp hr
    exact State.fillBlocks_succ.mpr ⟨_, State.fillBlock_eq_some.mpr ⟨hslot, rfl⟩, ht'⟩

/-- A TX command keeps everything outside the queue, the DMA registers and the events, and runs alike with another
ring and another channel. -/
theorem exec_isTx_spec {i : Instr} {s t : State} (hi : i.isTx = true) (h : exec i s = .next t) :
    s.txFrame t ∧ ∀ (rx : RxRing) (ch : Channel), exec i (s.withPeers rx ch) = .next (t.withPeers rx ch) := by
  rcases exec_cases h with ⟨st, -, rfl, herr⟩ | ⟨rfl, -⟩ | ⟨b, r, rfl, -⟩ | ⟨n, rfl, -⟩ | ⟨rfl, rfl⟩ |
    ⟨n, r, u, rfl, hn, hbs, hfit, hpay, hfill, hpump, rfl⟩ | ⟨u, rfl, hpump, rfl⟩ |
    ⟨r, u, rfl, hd, hretire, harm, rfl⟩ | ⟨p, b, rfl, -⟩
  · refine ⟨s.txFrame_refl, fun rx ch => ?_⟩
    rcases herr with ⟨b, rfl, -⟩ | ⟨n, rfl, -⟩ | ⟨rfl, rfl⟩ | ⟨n, rfl, hn, hbs, rfl, hfull⟩ | ⟨p, b, rfl, -⟩
    · exact absurd hi nofun
    · exact absurd hi nofun
    · exact exec_txenq_zero _
    · exact exec_txenq_full (s := s.withPeers rx ch) hn hbs hfull
    · exact absurd hi nofun
  · exact absurd hi nofun
  · exact absurd hi nofun
  · exact absurd hi nofun
  · exact ⟨s.txFrame_refl, fun rx ch => exec_txrst _⟩
  · refine ⟨((State.fillBlocks_frame hfill).trans (State.pump_frame hpump)).answer, fun rx ch => ?_⟩
    exact exec_txenq_of_pump (s := s.withPeers rx ch) hn hbs hfit hpay (State.fillBlocks_withPeers hfill rx ch)
      (State.pump_withPeers hpump rx ch)
  · exact ⟨(State.pump_frame hpump).answer, fun rx ch => exec_txpump_of_pump (State.pump_withPeers hpump rx ch)⟩
  · have hpump : s.completed.pump = some u := State.pump_eq_some.mpr (.inr (.inr ⟨rfl, r, hretire, harm⟩))
    have hframe : s.txFrame u := (State.pump_frame hpump :)
    exact ⟨hframe.answer, fun rx ch => exec_txdone_of_pump (s := s.withPeers rx ch) hd
      (State.pump_withPeers hpump rx ch)⟩
  · exact absurd hi nofun

/-- Settles O28, by the frame and the independence that every operation of the queue has. -/
theorem txCommandsTouchOnlyTheQueue : Obligations.TxCommandsTouchOnlyTheQueue := fun _ hi =>
  ⟨fun _ _ h => (exec_isTx_spec hi h).1.eq_with, fun _ _ rx ch h => (exec_isTx_spec hi h).2 rx ch⟩

/-! ### The tests of `TXENQ` (R103, R104) -/

/-- Settles O30: the length is tested first, and a queue never holds more than NB blocks. -/
theorem zeroLengthSendIsRejected : Obligations.ZeroLengthSendIsRejected :=
  fun s => ⟨exec_txenq_zero s, fun ⟨hcount, _⟩ => Nat.not_lt.mpr hcount⟩

/-- Everything a `TXENQ` that answers a next state can do. -/
theorem exec_txenq_cases {n : Nat} {s t : State} (h : exec (.txenq n) s = .next t) :
    (n = 0 ∧ t = s.raise (.txenq n) .invalidArgument) ∨
    (s.cfg.nb < s.tx.count + blocksNeeded s.cfg.bs n ∧ t = s.raise (.txenq n) .queueFull) ∨
    (s.tx.count + blocksNeeded s.cfg.bs n ≤ s.cfg.nb ∧ n ≤ s.appIn.length ∧
      ∃ r u, State.fillBlocks (blocksNeeded s.cfg.bs n) (s.appIn.take n) s = some r ∧ r.pump = some u ∧
        t = u.answer (.txenq n) .ok (s.appIn.take n) []) := by
  rcases exec_cases h with ⟨st, -, rfl, herr⟩ | ⟨hi, -⟩ | ⟨b, r, hi, -⟩ | ⟨m, hi, -⟩ | ⟨hi, -⟩ |
    ⟨m, r, u, hi, -, -, hfit, hpay, hfill, hpump, rfl⟩ | ⟨u, hi, -⟩ | ⟨r, u, hi, -⟩ | ⟨p, b, hi, -⟩
  case inl =>
    rcases herr with ⟨b, hi, -⟩ | ⟨m, hi, -⟩ | ⟨hi, rfl⟩ | ⟨m, hi, -, -, rfl, hfull⟩ | ⟨p, b, hi, -⟩
    case inr.inr.inl => exact .inl ⟨Instr.txenq.inj hi, rfl⟩
    case inr.inr.inr.inl =>
      obtain rfl := Instr.txenq.inj hi
      exact .inr (.inl ⟨hfull, rfl⟩)
    all_goals exact absurd hi nofun
  case inr.inr.inr.inr.inr.inl =>
    obtain rfl := Instr.txenq.inj hi
    exact .inr (.inr ⟨hfit, hpay, r, u, hfill, hpump, rfl⟩)
  all_goals exact absurd hi nofun

/-- A `TXENQ` whose last output is `QueueFull` failed the capacity test. -/
theorem lacks_slots_of_exec_txenq_queueFull {n : Nat} {s t : State} {es : List Event} (h : exec (.txenq n) s = .next t)
    (hfull : t.events = es ++ [.returned ⟨.txenq n, .queueFull, [], []⟩]) :
    s.cfg.nb < s.tx.count + blocksNeeded s.cfg.bs n := by
  rcases exec_txenq_cases h with ⟨-, rfl⟩ | ⟨hlack, -⟩ | ⟨-, -, r, u, -, -, rfl⟩
  · simp at hfull
  · exact hlack
  · simp at hfull

/-- A request of more than NB*BS bytes needs more than NB blocks. -/
theorem lt_blocksNeeded {w n len : Nat} (hw : 1 ≤ w) (h : n * w < len) : n < blocksNeeded w len :=
  Nat.lt_of_mul_lt_mul_right (h.trans_le (blocksNeeded_bounds hw).1)

/-- Settles O31, with the bounds of `ceil(len / BS)` for the requests that can never fit. -/
theorem queueFullExactlyWhenSlotsLack : Obligations.QueueFullExactlyWhenSlotsLack := by
  refine ⟨fun len s hlen hbs => ⟨⟨?_, ?_⟩, exec_txenq_full hlen hbs, fun hlong => ?_, fun hfull => ?_⟩, rfl⟩
  · rintro ⟨t, hexec, hevents⟩
    exact lacks_slots_of_exec_txenq_queueFull hexec hevents
  · exact fun hlack => ⟨_, exec_txenq_full hlen hbs hlack, rfl⟩
  · exact (lt_blocksNeeded hbs hlong).trans_le (Nat.le_add_left _ _)
  · rw [hfull]
    exact Nat.lt_add_of_pos_right (blocksNeeded_pos hbs hlen)

/-! ### The rows of the pump step (R108 to R112) -/

/-- From `s` to `t` the oldest block has left the queue and nothing else of the queue has changed but `tx.dmaState`
(R110). -/
abbrev State.retiredOldest (s t : State) : Prop :=
  t.usedAt s.tx.tail = 0 ∧ (∀ c, c ≠ s.tx.tail → t.usedAt c = s.usedAt c) ∧
    t.tx.blk = s.tx.blk ∧ t.tx.head = s.tx.head ∧ t.tx.tail = (s.tx.tail + 1) % s.cfg.nb ∧
    t.tx.count + 1 = s.tx.count ∧ s.txFrame t

theorem State.retire_dma {s t : State} (h : s.retire = some t) : t.dma = s.dma := by
  obtain ⟨-, rfl⟩ := State.retire_eq_some.mp h
  rfl

theorem State.retire_retiredOldest {s t : State} (h : s.retire = some t) : s.retiredOldest t := by
  have hframe := State.retire_frame h
  obtain ⟨⟨hslot, hcount⟩, rfl⟩ := State.retire_eq_some.mp h
  have hlt := ((State.slotExists_iff _ _).mp hslot).2
  exact ⟨(usedAt_set (s := s) rfl hlt _).trans (if_pos rfl), fun c hc => (usedAt_set rfl hlt c).trans (if_neg hc),
    rfl, rfl, rfl, Nat.sub_add_cancel hcount, hframe⟩

/-- Arming or going idle leaves the blocks and their sizes alone. -/
theorem State.armOrIdle_contents {s t : State} (h : s.armOrIdle = some t) :
    t.tx.blk = s.tx.blk ∧ t.tx.used = s.tx.used := by
  rcases State.armOrIdle_eq_some.mp h with ⟨-, rfl⟩ | ⟨-, harm⟩
  · exact ⟨rfl, rfl⟩
  · obtain ⟨-, rfl⟩ := State.arm_eq_some.mp harm
    exact ⟨rfl, rfl⟩

theorem State.retiredOldest.armOrIdle {s r t : State} (hr : s.retiredOldest r) (h : r.armOrIdle = some t) :
    s.retiredOldest t := by
  obtain ⟨hblk, hused⟩ := State.armOrIdle_contents h
  obtain ⟨hhead, htail, hcount⟩ := State.armOrIdle_cursors h
  obtain ⟨hfreed, hothers, hrblk, hrhead, hrtail, hrcount, hframe⟩ := hr
  rw [State.retiredOldest, usedAt_congr hused, hblk, hhead, htail, hcount]
  exact ⟨hfreed, hothers, hrblk, hrhead, hrtail, hrcount, hframe.trans (State.armOrIdle_frame h)⟩

/-- What the pump step asks of the slots, in the states no run reaches too (R43): the tail is a slot, every slot has a
size, and no size is over BS. -/
abbrev State.slotsFormed (s : State) : Prop :=
  s.tx.tail < s.cfg.nb ∧ s.tx.used.length = s.cfg.nb ∧ ∀ b, s.usedAt b ≤ s.cfg.bs

theorem State.slotsFormed.slotExists {s : State} (h : s.slotsFormed) : s.slotExists s.tx.tail = true := by
  obtain ⟨htail, hlen, -⟩ := h
  exact (State.slotExists_iff _ _).mpr ⟨htail, hlen ▸ htail⟩

theorem State.txInv.slotsFormed {s : State} (hI : s.txInv) : s.slotsFormed := by
  have ⟨_, _, htail, _, hlen, _⟩ := hI
  exact ⟨htail, hlen, hI.used_le⟩

theorem State.slotsFormed.armOrIdle {s : State} (h : s.slotsFormed) (hc : s.tx.count ≠ 0) :
    s.armOrIdle = some { s with
      tx := ⟨s.tx.blk, s.tx.used, s.tx.head, s.tx.tail, s.tx.count, .transmitting⟩
      dma := ⟨true, true, s.tx.tail, s.usedAt s.tx.tail⟩
      events := s.events ++
        [.armed ⟨s.tx.tail, s.usedAt s.tx.tail, s.slotBytes s.tx.tail (s.usedAt s.tx.tail)⟩] } := by
  have hslot := h.slotExists
  obtain ⟨-, -, hle⟩ := h
  exact State.armOrIdle_eq_some.mpr (.inr ⟨hc, State.arm_eq_some.mpr ⟨⟨hslot, hle _⟩, rfl⟩⟩)

theorem State.retire_slotsFormed {s t : State} (hs : s.slotsFormed) (h : s.retire = some t) : t.slotsFormed := by
  obtain ⟨htail, hlen, hle⟩ := hs
  obtain ⟨hfreed, hothers, -, -, hrtail, -, hcfg, -⟩ := State.retire_retiredOldest h
  have hlen' : t.tx.used.length = s.tx.used.length := by
    obtain ⟨-, rfl⟩ := State.retire_eq_some.mp h
    exact List.length_set
  rw [State.slotsFormed, hrtail, hlen', hcfg]
  refine ⟨Nat.mod_lt _ (Nat.zero_lt_of_lt htail), hlen, fun b => ?_⟩
  by_cases hb : b = s.tx.tail
  · rw [hb, hfreed]
    exact Nat.zero_le _
  · exact (hothers b hb).le.trans (hle b)

/-- The bytes of a slot are those of TXMEM. -/
theorem State.txFrame.slotBytes_eq {s t : State} (h : s.txFrame t) (hblk : t.tx.blk = s.tx.blk) (b n : Nat) :
    t.slotBytes b n = s.slotBytes b n := by
  obtain ⟨hcfg, -, -, -, -, hresets⟩ := h
  exact slotBytes_congr hcfg fun i _ => by rw [State.txRead_congr hresets hblk]

/-- The rows `TransferDone` of the pump step: retire the oldest block, then arm the next one or go idle. -/
theorem State.pump_retires {s : State} (hs : s.slotsFormed) (hd : s.tx.dmaState = .transferDone)
    (hpos : 1 ≤ s.tx.count) :
    ∃ t, s.pump = some t ∧ s.retiredOldest t ∧
      (s.tx.count > 1 → t.tx.dmaState = .transmitting ∧ t.dma = ⟨true, true, t.tx.tail, t.usedAt t.tx.tail⟩ ∧
        t.events = s.events ++
          [.dmaClr, .armed ⟨t.tx.tail, t.usedAt t.tx.tail, s.slotBytes t.tx.tail (t.usedAt t.tx.tail)⟩]) ∧
      (s.tx.count = 1 → t.tx.dmaState = .idle ∧ t.dma = ⟨false, s.dma.tcie, s.dma.blk, s.dma.len⟩ ∧
        t.events = s.events ++ [.dmaClr]) := by
  obtain ⟨r, hretire⟩ : ∃ r, s.retire = some r := ⟨_, State.retire_eq_some.mpr ⟨⟨hs.slotExists, hpos⟩, rfl⟩⟩
  have hretired := State.retire_retiredOldest hretire
  have hpulse := State.retire_events hretire
  have ⟨_, _, hblk, _, _, hcount, hframe⟩ := hretired
  by_cases hlast : r.tx.count = 0
  · have hidle : r.armOrIdle = some r.goIdle := State.armOrIdle_eq_some.mpr (.inl ⟨hlast, rfl⟩)
    refine ⟨_, State.pump_eq_some.mpr (.inr (.inr ⟨hd, r, hretire, hidle⟩)), hretired.armOrIdle hidle,
      fun hmany => by omega, fun _ => ⟨rfl, ?_, hpulse⟩⟩
    rw [State.goIdle_dma, State.retire_dma hretire]
  · have harm := (State.retire_slotsFormed hs hretire).armOrIdle hlast
    refine ⟨_, State.pump_eq_some.mpr (.inr (.inr ⟨hd, r, hretire, harm⟩)), hretired.armOrIdle harm,
      fun _ => ⟨rfl, rfl, ?_⟩, fun hone => by omega⟩
    rw [← hframe.slotBytes_eq hblk, List.append_cons s.events .dmaClr, ← hpulse]
    rfl

/-- What a command emits before its answer stands before it. -/
theorem State.answer_events_of {s t : State} {es : List Event} (h : t.events = s.events ++ es) (i : Instr)
    (st : Status) (inp out : List Byte) :
    (t.answer i st inp out).events = s.events ++ (es ++ [.returned ⟨i, st, inp, out⟩]) := by
  rw [State.answer_events, h, List.append_assoc]

/-- Settles O36, row by row. -/
theorem pumpFollowsTheStateMachine : Obligations.PumpFollowsTheStateMachine := by
  refine ⟨rfl, decodeOfEncodeIsTheCommand .txpump rfl, fun s htail hlen hle => ?_⟩
  have hs : s.slotsFormed := ⟨htail, hlen, hle⟩
  refine ⟨fun hd hc => ?_, fun hd hc => ?_, fun hd => ?_, fun hd hc => ?_, fun hd hc => ?_⟩
  · have harm := hs.armOrIdle hc.ne'
    rw [exec_txpump_of_pump (State.pump_eq_some.mpr (.inr (.inl ⟨hd, harm⟩)))]
    simp [State.answer, State.emit]
  · have hidle := State.armOrIdle_eq_some.mpr (.inl ⟨hc, rfl⟩)
    rw [exec_txpump_of_pump (State.pump_eq_some.mpr (.inr (.inl ⟨hd, hidle⟩)))]
    simp [State.answer, State.emit, State.goIdle, ← hd]
  · exact exec_txpump_of_pump (State.pump_of_transmitting hd)
  · obtain ⟨u, hpump, ⟨hfreed, hothers, hblk, hhead, htl, hcount, hframe⟩, harms, -⟩ :=
      State.pump_retires hs hd hc.le
    obtain ⟨hstate, hdma, hevents⟩ := harms hc
    rw [htl] at hdma hevents
    exact ⟨_, _, rfl, exec_txpump_of_pump hpump, hfreed, hothers, hblk, hhead, htl, hcount, hstate, hdma,
      State.answer_events_of hevents _ _ _ _, hframe.answer.eq_with⟩
  · obtain ⟨u, hpump, ⟨hfreed, hothers, hblk, hhead, htl, hcount, hframe⟩, -, hidles⟩ :=
      State.pump_retires hs hd hc.ge
    obtain ⟨hstate, hdma, hevents⟩ := hidles hc
    exact ⟨_, exec_txpump_of_pump hpump, hfreed, hothers, hblk, hhead, htl,
      Nat.succ.inj (hcount.trans hc), hstate, hdma, State.answer_events_of hevents _ _ _ _, hframe.answer.eq_with⟩

/-! ### `TXDONE` (R115, R116) -/

theorem exec_txdone_outside {s : State} (h : s.tx.dmaState ≠ .transmitting) :
    exec .txdone s = .fault .spuriousCompletion := if_neg h

/-- A slot that does not exist is another fault than a completion nothing caused. -/
theorem formed_ne_spurious (o : Option State) : formed o ≠ .fault .spuriousCompletion := by
  cases o <;> simp [formed]

/-- Settles O38: in `Transmitting`, `TXDONE` is a pump step. -/
theorem txdoneOutsideTransmittingFaults : Obligations.TxdoneOutsideTransmittingFaults := by
  refine fun s => ⟨fun h hd => ?_, exec_txdone_outside⟩
  rw [exec_txdone_ok hd] at h
  exact formed_ne_spurious _ h

/-- The slot after the tail is another one where there are two. -/
theorem State.next_ne_tail {s : State} (htail : s.tx.tail < s.cfg.nb) (hnb : 1 < s.cfg.nb) :
    (s.tx.tail + 1) % s.cfg.nb ≠ s.tx.tail := fun he => by
  rcases (ring_index_eq_self_iff htail hnb.le).mp he with h | h <;> omega

/-- Settles O37: the pump step from `TransferDone`, whose next block's size the retire has not touched. -/
theorem txdoneRetiresThenArmsOrIdles : Obligations.TxdoneRetiresThenArmsOrIdles := by
  refine ⟨rfl, decodeOfEncodeIsTheCommand .txdone rfl, fun s => exec_txdone_outside, ?_⟩
  rintro s ⟨-, -, -, htx, ⟨-, htransmitting, -⟩, -⟩ hd
  obtain ⟨hpos, -⟩ := htransmitting hd
  have ⟨hle, _, htail, _⟩ := htx
  have hs : s.completed.slotsFormed := State.txInv.slotsFormed (s := s.completed) htx
  obtain ⟨u, hpump, ⟨hfreed, hothers, hblk, hhead, htl, hcount, hframe⟩, harms, hidles⟩ :=
    State.pump_retires hs rfl hpos
  have hframe' : s.txFrame u := hframe
  have hcount' : u.tx.count + 1 = s.tx.count := hcount
  refine ⟨_, _, rfl, exec_txdone_of_pump hd hpump, hfreed, hothers, hblk, hhead, htl, hcount, ?_, ?_, fun hmany => ?_,
    fun hone => ?_, hframe'.answer.eq_with⟩
  · have hcfg : u.cfg = s.cfg := hframe'.1
    refine Bool.eq_false_iff.mpr fun hfull => ?_
    have : u.tx.count = u.cfg.nb := u.txFull_iff.mp hfull
    rw [hcfg] at this
    omega
  · rw [State.txEmpty_iff]
    show u.tx.count = 0 ↔ _
    omega
  · obtain ⟨hstate, hdma, hevents⟩ := harms hmany
    have hsize := hothers _ (s.next_ne_tail htail (hmany.trans_le hle))
    rw [htl, hsize] at hdma hevents
    exact ⟨hstate, hdma, State.answer_events_of hevents _ _ _ _⟩
  · obtain ⟨hstate, hdma, hevents⟩ := hidles hone
    exact ⟨hstate, hdma, State.answer_events_of hevents _ _ _ _⟩

/-! ### `TXENQ` fills free slots (R101, R102, R105) -/

/-- Where there is nothing to retire, the pump step changes no byte and no size. -/
theorem State.pump_views {s t : State} (h : s.pump = some t) (hd : s.tx.dmaState ≠ .transferDone) :
    t.txRead = s.txRead ∧ t.usedAt = s.usedAt := by
  rcases State.pump_eq_some.mp h with ⟨-, rfl⟩ | ⟨-, harm⟩ | ⟨hdone, -⟩
  · exact ⟨rfl, rfl⟩
  · obtain ⟨hblk, hused⟩ := State.armOrIdle_contents harm
    obtain ⟨-, -, -, -, -, hresets⟩ := State.armOrIdle_frame harm
    exact ⟨State.txRead_congr hresets hblk, usedAt_congr hused⟩
  · exact absurd hdone hd

/-- Settles O33: the blocks are filled into free slots, and the pump step writes no slot; an error writes nothing. -/
theorem txenqWritesOnlyFreeSlots : Obligations.TxenqWritesOnlyFreeSlots := by
  intro len s t hI h
  obtain ⟨hmid, -, -, hrest⟩ := State.inv_iff.mp hI
  have ⟨⟨_, _, hbs, _⟩, _, _, htx, _⟩ := hmid
  rcases exec_txenq_cases h with ⟨-, rfl⟩ | ⟨-, rfl⟩ | ⟨hfit, hpay, r, u, hfill, hpump, rfl⟩
  · exact ⟨fun _ _ => rfl, fun _ _ _ => rfl, fun _ _ => ⟨rfl, fun _ _ => rfl⟩⟩
  · exact ⟨fun _ _ => rfl, fun _ _ _ => rfl, fun _ _ => ⟨rfl, fun _ _ => rfl⟩⟩
  have hdata : (s.appIn.take len).length = len := List.length_take_of_le hpay
  obtain ⟨hhi, hlo⟩ := blocksNeeded_bounds (len := len) hbs
  obtain ⟨r', hfill', -, -, -, -, hothers, -, -, hreads, -⟩ :=
    State.fillBlocks_spec _ (s.appIn.take len) s hbs htx hfit (by rwa [hdata]) (by rwa [hdata])
  obtain rfl := Option.some.inj (hfill'.symm.trans hfill)
  obtain ⟨-, -, -, hstate, -⟩ := State.fillBlocks_rest hfill
  obtain ⟨hread, hused⟩ := State.pump_views hpump (hstate ▸ hrest)
  obtain ⟨-, -, hqueued⟩ := State.fillBlocks_midInv hmid hdata hfit hfill
  show (∀ a, _ → u.txRead a = _) ∧ (∀ b < _, _ → u.usedAt b = _) ∧
    ∀ j < _, u.usedAt (s.slotAt j) = _ ∧ ∀ i < _, u.txRead (s.txAddr (s.slotAt j) i) = _
  rw [hread, hused]
  refine ⟨fun a ha => hreads a (by rwa [hdata]), fun b _ hb => hothers b hb, fun j hj => ⟨hqueued j hj, fun i hi => ?_⟩⟩
  exact State.fillBlocks_read_queued hbs htx hdata hfit hfill hj hi

/-! ### An accepted `TXENQ` (R101, R102, R111, R113) -/

/-- Every block of a request but the last is full. -/
theorem block_size_of_not_last {w len j : Nat} (hw : 1 ≤ w) (hj : j + 1 < blocksNeeded w len) :
    min w (len - j * w) = w := by
  obtain ⟨-, hlo⟩ := blocksNeeded_bounds (len := len) hw
  have hmul : (j + 2) * w ≤ blocksNeeded w len * w := Nat.mul_le_mul_right w hj
  rw [Nat.add_mul] at hmul
  omega

/-- The last block of a request holds what the full ones leave, 1 to `w` bytes. -/
theorem block_size_last {w len : Nat} (hw : 1 ≤ w) (hl : 1 ≤ len) :
    1 ≤ len - (blocksNeeded w len - 1) * w ∧ len - (blocksNeeded w len - 1) * w ≤ w := by
  obtain ⟨hhi, hlo⟩ := blocksNeeded_bounds (len := len) hw
  have hmul : (blocksNeeded w len - 1 + 1) * w = blocksNeeded w len * w := by
    rw [Nat.sub_add_cancel (blocksNeeded_pos hw hl)]
  rw [Nat.add_mul] at hmul
  omega

/-- The oldest block is the front of the queued payload. -/
theorem State.slotBytes_tail {s : State} (hc : s.tx.count ≠ 0) (ht : s.tx.tail < s.cfg.nb) :
    s.slotBytes s.tx.tail (s.usedAt s.tx.tail) = (s.queuedFrom 0).take (s.usedAt s.tx.tail) := by
  rw [State.queuedFrom_zero hc ht, List.take_left' (s.length_slotBytes _ _)]

/-- The pump step in `Idle` with a block queued (R111). -/
theorem State.pump_arms {s t : State} (h : s.pump = some t) (hd : s.tx.dmaState = .idle) (hc : s.tx.count ≠ 0) :
    t.tx.dmaState = .transmitting ∧ t.dma = ⟨true, true, s.tx.tail, s.usedAt s.tx.tail⟩ ∧
      t.events = s.events ++
        [.armed ⟨s.tx.tail, s.usedAt s.tx.tail, s.slotBytes s.tx.tail (s.usedAt s.tx.tail)⟩] := by
  rcases State.pump_eq_some.mp h with ⟨hd', -⟩ | ⟨-, harm⟩ | ⟨hd', -⟩
  · exact absurd (hd.symm.trans hd') nofun
  · rcases State.armOrIdle_eq_some.mp harm with ⟨hempty, -⟩ | ⟨-, harm⟩
    · exact absurd hempty hc
    · obtain ⟨-, rfl⟩ := State.arm_eq_some.mp harm
      exact ⟨rfl, rfl, rfl⟩
  · exact absurd (hd.symm.trans hd') nofun

/-- The block a request puts at the tail of an empty queue: its first BS bytes. -/
theorem State.fillBlocks_oldest {s t : State} {len : Nat} {data : List Byte} (hbs : 1 ≤ s.cfg.bs) (hI : s.txInv)
    (hempty : s.tx.count = 0) (hl : 1 ≤ len) (hlen : data.length = len)
    (hfit : s.tx.count + blocksNeeded s.cfg.bs len ≤ s.cfg.nb)
    (h : State.fillBlocks (blocksNeeded s.cfg.bs len) data s = some t) :
    t.tx.count ≠ 0 ∧ t.usedAt s.tx.tail = min s.cfg.bs len ∧
      t.slotBytes s.tx.tail (min s.cfg.bs len) = data.take s.cfg.bs := by
  obtain ⟨hhi, hlo⟩ := blocksNeeded_bounds (len := len) hbs
  obtain ⟨t', ht', -, hcount, -, hsizes, -, hqueued, -⟩ :=
    State.fillBlocks_spec _ data s hbs hI hfit (hlen ▸ hlo) (hlen ▸ hhi)
  obtain rfl := Option.some.inj (ht'.symm.trans h)
  have hpos := blocksNeeded_pos hbs hl
  have ⟨_, _, htail, _⟩ := hI
  obtain ⟨-, -, htl, -⟩ := State.fillBlocks_rest h
  have hcfg : t'.cfg = s.cfg := (State.fillBlocks_frame h).1
  have hsize : t'.usedAt s.tx.tail = min s.cfg.bs len := by
    have hfirst := hsizes 0 hpos
    rwa [hI.head_add, hempty, State.slotAt_zero htail, Nat.zero_mul, Nat.sub_zero, hlen] at hfirst
  have hqueue : t'.tx.count ≠ 0 := by omega
  have hbytes := State.slotBytes_tail hqueue (by rwa [htl, hcfg])
  rw [htl, hsize, hqueued 0 (Nat.zero_le _), State.queuedFrom_of_empty hempty, List.nil_append, ← hlen,
    ← List.take_eq_take_min, hlen] at hbytes
  exact ⟨hqueue, hsize, hbytes⟩

/-- The pump step after the blocks of a request: a transfer in flight goes on, and from `Idle`, with nothing queued
before, the request's first block is armed. -/
theorem State.fillBlocks_pump_engine {s r u : State} {len : Nat} {data : List Byte} (hbs : 1 ≤ s.cfg.bs)
    (hI : s.txInv) (hrest : s.restInv) (hl : 1 ≤ len) (hlen : data.length = len)
    (hfit : s.tx.count + blocksNeeded s.cfg.bs len ≤ s.cfg.nb)
    (hfill : State.fillBlocks (blocksNeeded s.cfg.bs len) data s = some r) (hpump : r.pump = some u) :
    u.tx.dmaState = .transmitting ∧
      (s.tx.dmaState = .transmitting → u.dma = s.dma ∧ u.events = s.events) ∧
      (s.tx.dmaState = .idle → u.dma = ⟨true, true, s.tx.tail, min s.cfg.bs len⟩ ∧
        u.events = s.events ++ [.armed ⟨s.tx.tail, min s.cfg.bs len, data.take s.cfg.bs⟩]) := by
  obtain ⟨hdma, hevents, htail, hstate, -⟩ := State.fillBlocks_rest hfill
  obtain ⟨hidle, -, hdone⟩ := hrest
  cases hd : s.tx.dmaState with
  | idle =>
    obtain ⟨hempty, -⟩ := hidle hd
    obtain ⟨hcount, hsize, hbytes⟩ := State.fillBlocks_oldest hbs hI hempty hl hlen hfit hfill
    obtain ⟨hustate, hudma, huevents⟩ := State.pump_arms hpump (hstate.trans hd) hcount
    rw [htail, hsize] at hudma
    rw [htail, hsize, hbytes, hevents] at huevents
    exact ⟨hustate, nofun, fun _ => ⟨hudma, huevents⟩⟩
  | transmitting =>
    have hflight := hstate.trans hd
    obtain rfl := Option.some.inj ((State.pump_of_transmitting hflight).symm.trans hpump)
    exact ⟨hflight, fun _ => ⟨hdma, hevents⟩, nofun⟩
  | transferDone => exact absurd hd hdone

/-- Settles O32: the blocks filled hold the request, and the pump step arms the oldest block from `Idle`. -/
theorem txenqFillsSlotsAndPumps : Obligations.TxenqFillsSlotsAndPumps := by
  rintro len s ⟨⟨-, -, hbs, -⟩, -, -, htx, hrest, -⟩ hl hfit hpay
  have ⟨_, _, hnotdone⟩ := hrest
  have hdata : (s.appIn.take len).length = len := List.length_take_of_le hpay
  have hpos := blocksNeeded_pos hbs hl
  obtain ⟨hhi, hlo⟩ := blocksNeeded_bounds (len := len) hbs
  obtain ⟨hlast, hlast'⟩ := block_size_last hbs hl
  obtain ⟨r, hfill, hrI, hcount, hhead, hsizes, -, -, hbytes, -⟩ :=
    State.fillBlocks_spec (blocksNeeded s.cfg.bs len) (s.appIn.take len) s hbs htx hfit (by rwa [hdata])
      (by rwa [hdata])
  rw [hdata] at hsizes hbytes
  obtain ⟨hdma, hevents, htl, hstate, -⟩ := State.fillBlocks_rest hfill
  have hdone : r.tx.dmaState ≠ .transferDone := hstate ▸ hnotdone
  obtain ⟨u, hpump⟩ := hrI.exists_pump fun hd => absurd hd hdone
  obtain ⟨hread, hused⟩ := State.pump_views hpump hdone
  obtain ⟨huhead, hucursors⟩ := State.pump_cursors hpump
  obtain ⟨hutail, hucount⟩ := hucursors hdone
  have hframe := (State.fillBlocks_frame hfill).trans (State.pump_frame hpump)
  have hcfg : u.cfg = s.cfg := hframe.1
  have hempty : u.tx.count ≠ 0 := by omega
  obtain ⟨hustate, hustays, huarms⟩ := State.fillBlocks_pump_engine hbs htx hrest hl hdata hfit hfill hpump
  refine ⟨_, blocksNeeded s.cfg.bs len, rfl, exec_txenq_of_pump hl hbs hfit hpay hfill hpump, huhead.trans hhead,
    hutail.trans htl, hucount.trans hcount, ?_, ?_, hlast, hlast', ?_, ?_, ?_, hustate, ?_, ?_, hframe.answer.eq_with⟩
  · intro j hj
    show u.usedAt _ = _
    rw [hused, hsizes j (by omega), block_size_of_not_last hbs hj]
  · show u.usedAt _ = _
    rw [hused, hsizes _ (by omega), Nat.min_eq_right hlast']
  · intro p hp
    show some (u.txRead _) = _
    rw [hread, hbytes p hp, List.getElem?_take_of_lt hp]
  · exact Bool.eq_false_iff.mpr fun h => hempty (u.txEmpty_iff.mp h)
  · rw [State.txFull_iff, State.answer_tx, State.answer_cfg, hucount, hcount, hcfg]
  · intro hd
    obtain ⟨hudma, huevents⟩ := hustays hd
    exact ⟨hudma, congrArg (· ++ _) huevents⟩
  · intro hd
    obtain ⟨hudma, huevents⟩ := huarms hd
    exact ⟨hudma, State.answer_events_of huevents _ _ _ _⟩

/-! ### Draining a request (R117, R118) -/

/-- At rest an empty queue is idle with the engine off (R23). -/
theorem State.restInv.of_empty {s : State} (h : s.restInv) (hc : s.tx.count = 0) :
    s.tx.dmaState = .idle ∧ s.dma.en = false := by
  obtain ⟨hidle, htransmitting, hdone⟩ := h
  cases hd : s.tx.dmaState with
  | idle => exact ⟨rfl, (hidle hd).2⟩
  | transmitting =>
    obtain ⟨hpos, -⟩ := htransmitting hd
    omega
  | transferDone => exact absurd hd hdone

/-- At rest a block of a non-empty queue is in flight (R23). -/
theorem State.restInv.of_queued {s : State} (h : s.restInv) (hc : s.tx.count ≠ 0) :
    s.tx.dmaState = .transmitting := by
  obtain ⟨hidle, -, hdone⟩ := h
  cases hd : s.tx.dmaState with
  | idle => exact absurd (hidle hd).1 hc
  | transmitting => rfl
  | transferDone => exact absurd hd hdone

/-- From `s` to `t` the blocks `es` were armed, and their bytes, then those behind the block in flight, are
`payload`. -/
abbrev State.armedFrom (s t : State) (es : List ArmEntry) (payload : List Byte) : Prop :=
  t.txTrace = s.txTrace ++ es ∧ es.flatMap ArmEntry.bytes ++ t.queuedFrom 1 = payload

/-- Arming or going idle takes the oldest block of the queued payload, if there is one, to the trace. -/
theorem State.armOrIdle_armedFrom {s t : State} (htail : s.tx.tail < s.cfg.nb) (h : s.armOrIdle = some t) :
    ∃ es, es.length = min 1 s.tx.count ∧ s.armedFrom t es (s.queuedFrom 0) := by
  rcases State.armOrIdle_eq_some.mp h with ⟨hc, rfl⟩ | ⟨hc, harm⟩
  · refine ⟨[], by simp [hc], (List.append_nil _).symm, ?_⟩
    rw [State.queuedFrom_of_empty hc, State.queuedFrom_of_empty (s := s.goIdle) hc]
    rfl
  · obtain ⟨-, rfl⟩ := State.arm_eq_some.mp harm
    refine ⟨[⟨s.tx.tail, s.usedAt s.tx.tail, s.slotBytes s.tx.tail (s.usedAt s.tx.tail)⟩],
      (Nat.min_eq_left (Nat.pos_of_ne_zero hc)).symm, ?_, ?_⟩
    · rw [State.txTrace_append (s := s) rfl]
      rfl
    · rw [List.flatMap_singleton]
      exact (State.queuedFrom_zero hc htail).symm

/-- One completion: the next block, if there is one, goes from the queue to the trace. -/
theorem exec_txdone_armedFrom {s : State} (hI : s.Inv) (hc : s.tx.count ≠ 0) :
    ∃ t es, exec .txdone s = .next t ∧ t.tx.tail = (s.tx.tail + 1) % s.cfg.nb ∧ t.tx.count + 1 = s.tx.count ∧
      es.length = min 1 t.tx.count ∧ s.armedFrom t es (s.queuedFrom 1) := by
  obtain ⟨-, -, -, htx, hrest, -⟩ := hI
  have hd := hrest.of_queued hc
  obtain ⟨r, hretire, hrI, -, -, hqueued, htail, hcount, -⟩ :=
    State.retire_spec (s := s.completed) htx (Nat.pos_of_ne_zero hc)
  have ⟨_, _, hrtail, _⟩ := hrI
  obtain ⟨u, harm⟩ := hrI.exists_armOrIdle
  obtain ⟨es, hlen, htrace, hbytes⟩ := State.armOrIdle_armedFrom hrtail harm
  obtain ⟨-, hutail, hucount⟩ := State.armOrIdle_cursors harm
  have hrtrace : r.txTrace = s.txTrace := (State.retire_txTrace hretire :)
  refine ⟨_, es, exec_txdone_of_pump hd (State.pump_eq_some.mpr (.inr (.inr ⟨rfl, r, hretire, harm⟩))),
    hutail.trans htail, hucount ▸ hcount, hucount ▸ hlen, ?_, ?_⟩
  · rw [State.txTrace_answer, htrace, hrtrace]
  · exact hbytes.trans (hqueued 0)

/-- As many completions as blocks drain the queue, and the blocks behind the one in flight go to the trace. -/
theorem execAll_txdone_drains (n : Nat) {s : State} (hI : s.Inv) (hc : s.tx.count = n) :
    ∃ t es, execAll (List.replicate n .txdone) s = .next t ∧ t.Inv ∧ t.tx.count = 0 ∧
      t.tx.tail = (s.tx.tail + n) % s.cfg.nb ∧ es.length = n - 1 ∧ s.armedFrom t es (s.queuedFrom 1) := by
  induction n generalizing s with
  | zero =>
    have ⟨_, _, _, ⟨_, _, htail, _⟩, _⟩ := hI
    exact ⟨s, [], rfl, hI, hc, (Nat.mod_eq_of_lt htail).symm, rfl, (List.append_nil _).symm, rfl⟩
  | succ n ih =>
    obtain ⟨t, es, hexec, htail, hcount, hlen, htrace, hbytes⟩ := exec_txdone_armedFrom hI (by omega)
    have htcount : t.tx.count = n := by omega
    obtain ⟨u, es', hall, huI, hucount, hutail, hlen', htrace', hbytes'⟩ := ih (exec_inv hI hexec) htcount
    refine ⟨u, es ++ es', ?_, huI, hucount, ?_, ?_, ?_, ?_⟩
    · rw [List.replicate_succ, execAll, hexec]
      exact hall
    · rw [hutail, htail, exec_cfg hexec, Nat.mod_add_mod, Nat.add_assoc, Nat.add_comm 1]
    · rw [List.length_append]
      omega
    · rw [htrace', htrace, List.append_assoc]
    · rw [List.flatMap_append, List.append_assoc, hbytes', hbytes]

/-- A request to an idle queue puts its first block into the trace and the rest behind it. -/
theorem exec_txenq_armedFrom {s : State} {len : Nat} (hI : s.Inv) (hd : s.tx.dmaState = .idle) (hl : 1 ≤ len)
    (hfit : blocksNeeded s.cfg.bs len ≤ s.cfg.nb) (hpay : len ≤ s.appIn.length) :
    ∃ t es, exec (.txenq len) s = .next t ∧ t.tx.tail = s.tx.tail ∧ t.tx.count = blocksNeeded s.cfg.bs len ∧
      es.length = 1 ∧ s.armedFrom t es (s.appIn.take len) := by
  obtain ⟨⟨-, -, hbs, -⟩, -, -, htx, ⟨hidle, -⟩, -⟩ := hI
  obtain ⟨hempty, -⟩ := hidle hd
  have hfit' : s.tx.count + blocksNeeded s.cfg.bs len ≤ s.cfg.nb := by omega
  have hpos := blocksNeeded_pos hbs hl
  have hdata : (s.appIn.take len).length = len := List.length_take_of_le hpay
  obtain ⟨hhi, hlo⟩ := blocksNeeded_bounds (len := len) hbs
  obtain ⟨r, hfill, hrI, hcount, -, -, -, hqueued, -⟩ :=
    State.fillBlocks_spec (blocksNeeded s.cfg.bs len) (s.appIn.take len) s hbs htx hfit' (by rwa [hdata])
      (by rwa [hdata])
  have ⟨_, _, hrtail, _⟩ := hrI
  obtain ⟨-, -, htail, hstate, -⟩ := State.fillBlocks_rest hfill
  obtain ⟨u, harm⟩ := hrI.exists_armOrIdle
  obtain ⟨es, hlen, htrace, hbytes⟩ := State.armOrIdle_armedFrom hrtail harm
  obtain ⟨-, hutail, hucount⟩ := State.armOrIdle_cursors harm
  have hpump := State.pump_eq_some.mpr (.inr (.inl ⟨hstate.trans hd, harm⟩))
  refine ⟨_, es, exec_txenq_of_pump hl hbs hfit' hpay hfill hpump, hutail.trans htail, ?_, ?_, ?_, ?_⟩
  · rw [State.answer_tx, hucount, hcount, hempty, Nat.zero_add]
  · omega
  · rw [State.txTrace_answer, htrace, State.fillBlocks_txTrace hfill]
  · exact hbytes.trans (by rw [hqueued 0 (Nat.zero_le _), State.queuedFrom_of_empty hempty, List.nil_append])

/-- Settles O40: the trace takes the request's first block from the `TXENQ` and the others from the completions. -/
theorem drainingDeliversTheRequestAndStops : Obligations.DrainingDeliversTheRequestAndStops := by
  intro len s hI hd hl hfit hpay
  have ⟨⟨_, _, hbs, _⟩, _⟩ := hI
  have hpos := blocksNeeded_pos hbs hl
  obtain ⟨t, es, hexec, htail, hcount, hlen, htrace, hbytes⟩ := exec_txenq_armedFrom hI hd hl hfit hpay
  have htI := exec_inv hI hexec
  obtain ⟨u, es', hall, huI, hucount, hutail, hlen', htrace', hbytes'⟩ := execAll_txdone_drains _ htI hcount
  have ⟨_, _, _, _, htrest, _⟩ := htI
  obtain ⟨-, -, -, -, hurest, -⟩ := huI
  obtain ⟨hidle, hen⟩ := hurest.of_empty hucount
  have harmed : u.txTrace.drop s.txTrace.length = es ++ es' := by
    rw [htrace', htrace, List.append_assoc, List.drop_left]
  have hnone : u.queuedFrom 1 = [] := State.queuedFrom_of_empty hucount 1
  rw [hnone, List.append_nil] at hbytes'
  refine ⟨t, u, _, rfl, hexec, hcount, htrest.of_queued ?_, hall, hucount, hidle, hen, ?_, ?_, ?_⟩
  · rw [hcount]
    exact Nat.ne_of_gt hpos
  · rw [hutail, htail, exec_cfg hexec]
    rfl
  · rw [harmed, List.length_append, hlen, hlen']
    exact Nat.add_sub_cancel' hpos
  · rw [harmed, List.flatMap_append, hbytes', hbytes]

end Sys2Proof.Machine

/-! The statements of 42_channel.md: what `OPEN` writes and answers, and that its baud rate changes no state of the
block. -/

namespace Sys2Proof.Machine

/-! ### `OPEN` (R126 to R128) -/

theorem encode_chOpen {pin baud : Nat} (hpin : pin ≤ 15) (hbaud : baud ≤ 16777215) :
    encode (.chOpen pin baud) = 0x80000000#32 ||| (BitVec.ofNat 32 pin <<< 24) ||| BitVec.ofNat 32 baud := by
  rw [encode, BitVec.setWidth_ofNat_of_le_of_lt (by decide) (Nat.lt_succ_of_le hpin),
    BitVec.setWidth_ofNat_of_le_of_lt (by decide) (Nat.lt_succ_of_le hbaud)]

/-- Settles O46: the pin decides between the error and the state of the cleared ring and the cleared queue. -/
theorem openResetsBothEnginesOrFails : Obligations.OpenResetsBothEnginesOrFails := by
  refine fun pin baud => ⟨fun hpin hbaud => ?_, fun s => ⟨fun hp => exec_chOpen_unsupported hp baud, fun hp => ?_⟩⟩
  · rw [← encode_chOpen hpin hbaud]
    exact ⟨rfl, decodeOfEncodeIsTheCommand (.chOpen pin baud) (by simp [Instr.wf, hpin, hbaud])⟩
  · refine ⟨_, exec_chOpen_supported hp baud, State.rxRead_of_mem_nil rfl, rfl, rfl, rfl, rfl, rfl, rfl,
      fun hrc => ?_, fun hnb => ?_⟩
    · exact Bool.eq_false_iff.mpr fun h => absurd ((State.rxFull_iff _).mp h) hrc.ne
    · exact Bool.eq_false_iff.mpr fun h => absurd ((State.txFull_iff _).mp h) hnb.ne

/-! ### The baud rate (R129) -/

/-- `OPEN` arms nothing. -/
theorem exec_chOpen_txTrace {pin baud : Nat} {s t : State} (h : exec (.chOpen pin baud) s = .next t) :
    t.txTrace = s.txTrace :=
  (exec_txTrace h).resolve_right (by simp)

/-- `OPEN` succeeds exactly on a supported pin (R126, R128). -/
theorem exec_chOpen_ok_iff {pin baud : Nat} {s t : State} (h : exec (.chOpen pin baud) s = .next t) :
    (∃ r, t.events.getLast? = some (.returned r) ∧ r.status = .ok) ↔ s.cfg.pins.getLsbD pin = true := by
  cases hp : s.cfg.pins.getLsbD pin
  · rw [exec_chOpen_unsupported hp] at h
    obtain rfl := Host.Outcome.next.inj h
    simp [State.raise, State.answer, State.emit]
  · rw [exec_chOpen_supported hp] at h
    obtain rfl := Host.Outcome.next.inj h
    simp

/-- A successful `OPEN` pulses `cfg_req` with its own operands (R126). -/
theorem exec_chOpen_pulses {pin baud : Nat} {s t : State} (h : exec (.chOpen pin baud) s = .next t)
    (hp : s.cfg.pins.getLsbD pin = true) : .cfgReq baud pin ∈ t.events.drop s.events.length := by
  rw [exec_chOpen_supported hp] at h
  obtain rfl := Host.Outcome.next.inj h
  simp

/-- What `OPEN` leaves in the block is a function of the pin alone (R129). -/
theorem exec_chOpen_sameBlock {pin baud baud' : Nat} {s t t' : State} (h : exec (.chOpen pin baud) s = .next t)
    (h' : exec (.chOpen pin baud') s = .next t') : t.sameBlock t' := by
  cases hp : s.cfg.pins.getLsbD pin
  · rw [exec_chOpen_unsupported hp] at h h'
    obtain rfl := Host.Outcome.next.inj h
    obtain rfl := Host.Outcome.next.inj h'
    exact ⟨rfl, rfl, rfl, rfl, rfl⟩
  · rw [exec_chOpen_supported hp] at h h'
    obtain rfl := Host.Outcome.next.inj h
    obtain rfl := Host.Outcome.next.inj h'
    exact ⟨rfl, rfl, rfl, rfl, rfl⟩

/-- Settles O47: the block, the trace and the success are those of the pin and the state alone. -/
theorem baudHasNoEffect : Obligations.BaudHasNoEffect := by
  intro pin baud baud' s t h
  obtain ⟨t', h'⟩ := exec_chOpen_completes pin baud' s
  exact ⟨t', h', exec_chOpen_sameBlock h h', (exec_chOpen_txTrace h').trans (exec_chOpen_txTrace h).symm,
    (exec_chOpen_ok_iff h).trans (exec_chOpen_ok_iff h').symm,
    fun hp => ⟨exec_chOpen_pulses h hp, exec_chOpen_pulses h' hp⟩⟩

end Sys2Proof.Machine

/-! The statements of 60_exceptions.md: which agent has a step, what a failed command leaves, what each command answers,
and the races between commands of different ports. -/

namespace Sys2Proof.Machine

/-! ### The receive agent without its interrupt (R145) -/

/-- A step depends on the inputs through the first that can be delivered and the others after it. -/
theorem step_congr_takeFirst {s : State} {xs rest : List Input} {x : Input}
    (hs : takeFirst s.delivers s.inputs = some (x, rest)) (hxs : takeFirst s.delivers xs = some (x, rest)) :
    step s = step { s with inputs := xs } := by
  cases x with
  | rst => exact (step_of_take_rst hs).trans (step_of_take_rst (s := { s with inputs := xs }) hxs).symm
  | command r =>
    exact (step_of_take_command hs).trans (step_of_take_command (s := { s with inputs := xs }) hxs).symm

/-- Settles O9: no held byte can be delivered, so both orders take the same input and leave the same others. -/
theorem disabledReceiveInterruptHasNoStep : Obligations.DisabledReceiveInterruptHasNoStep := by
  intro s held x rest hen hin hheld hx
  have hwaits : ∀ y ∈ held, s.delivers y = false := fun y hy => by
    obtain ⟨r, rfl, hport⟩ := hheld y hy
    simp [State.delivers, hport, hen]
  have hcan : s.delivers x = true := by
    cases x with
    | rst => rfl
    | command r => exact (s.delivers_command r).mpr fun hport => absurd hport (hx r rfl)
  refine step_congr_takeFirst ?_ (takeFirst_cons_of_can hcan (held ++ rest))
  rw [hin]
  exact takeFirst_append hwaits hcan rest

/-! ### When a completion is admitted (R146) -/

/-- The step on a completion event is the fault of a closed port or `TXDONE`. -/
theorem step_of_completion {s : State} {payload : List Byte} {rest : List Input}
    (hin : s.inputs = .command ⟨.dmairq, 0x70000000#32, payload⟩ :: rest) :
    step s = if s.dmaIrqOpen = false then .fault .spuriousCompletion
      else exec .txdone { s with inputs := rest, appIn := payload } := by
  have htake : takeFirst s.delivers s.inputs = some (.command ⟨.dmairq, 0x70000000#32, payload⟩, rest) := by
    rw [hin]
    exact takeFirst_cons_of_can ((s.delivers_command _).mpr fun hport => Port.noConfusion hport) rest
  have hdec : decode .dmairq 0x70000000#32 = .command .txdone := decodeOfEncodeIsTheCommand .txdone rfl
  simp only [step_of_take_command htake, hdec, true_and]

theorem State.dmaIrqOpen_eq_false_iff (s : State) :
    s.dmaIrqOpen = false ↔ s.dma.tcie = false ∨ s.dma.en = false := Bool.and_eq_false_iff

/-- Settles O10: the fetch faults on a closed port, `TXDONE` outside `Transmitting`, and in `Transmitting` the invariant
has the port open and a block to retire. -/
theorem completionIsAdmittedExactlyInTransmitting : Obligations.CompletionIsAdmittedExactlyInTransmitting := by
  intro s payload rest hin
  have hstep := step_of_completion hin
  have hfaults (h : s.dma.tcie = false ∨ s.dma.en = false ∨ s.tx.dmaState ≠ .transmitting) :
      step s = .fault .spuriousCompletion := by
    rw [hstep]
    split
    next => rfl
    next hopen =>
      rw [State.dmaIrqOpen_eq_false_iff] at hopen
      exact exec_txdone_outside (by tauto)
  refine ⟨hfaults, fun hI => ⟨fun ⟨t, ht⟩ => ?_, fun hd => ?_⟩⟩
  · by_contra hd
    exact absurd ((hfaults (.inr (.inr hd))).symm.trans ht) nofun
  · obtain ⟨-, -, -, htx, ⟨-, htransmitting, -⟩, -⟩ := hI
    obtain ⟨hcount, hen, htcie, -⟩ := htransmitting hd
    rw [hstep, if_neg (by simp [State.dmaIrqOpen, htcie, hen])]
    exact exec_txdone_completes (s := { s with inputs := rest, appIn := payload }) htx hd hcount

/-! ### A push and a pop on a full ring (R148) -/

theorem execAll_pair {i j : Instr} {s t u : State} (hi : exec i s = .next t) (hj : exec j t = .next u) :
    execAll [i, j] s = .next u := by
  simp [execAll, hi, hj]

/-- A pop of bytes that are held delivers the front of the window and leaves the rest of it. -/
theorem exec_rxpop_takes {s : State} {len : Nat} (hI : s.rxInv) (hlen : len ≤ s.rx.count) :
    ∃ t, exec (.rxpop len) s = .next t ∧ t.cfg = s.cfg ∧ t.rxInv ∧ t.rx.count = s.rx.count - len ∧
      t.rxWindow = s.rxWindow.drop len ∧
      t.events = s.events ++ [.returned ⟨.rxpop len, .ok, [], s.rxWindow.take len⟩] := by
  have ⟨_, hhead, _⟩ := hI
  obtain ⟨hdrop, htake⟩ := State.rxDrop_window hlen
  refine ⟨_, exec_rxpop_ok hlen (Nat.zero_lt_of_lt hhead), rfl, State.rxDrop_rxInv hI hlen, rfl, hdrop, ?_⟩
  rw [← htake]
  rfl

/-- Settles O24: the push finds the ring full before the pop, and with room after it. -/
theorem orderDecidesThePushOnAFullRing : Obligations.OrderDecidesThePushOnAFullRing := by
  intro byte len s hI hfull hpos hlen
  obtain ⟨t, htpop, -, -, -, htwindow, htevents⟩ :=
    exec_rxpop_takes (s := s.raise (.rxpush byte) .overflow) hI hlen
  obtain ⟨p, hppop, hpcfg, hpI, hpcount, hpwindow, hpevents⟩ := exec_rxpop_takes hI hlen
  obtain ⟨u, hupush, -, -, huwindow, huevents⟩ := exec_rxpush_appends hpI (by rw [hpcfg]; omega) byte
  refine ⟨t, u, execAll_pair (exec_rxpush_full hfull byte) htpop, execAll_pair hppop hupush, ?_, ?_, htwindow, ?_⟩
  · rw [htevents, State.raise_events, List.append_assoc]
    rfl
  · rw [huevents, hpevents, List.append_assoc]
    rfl
  · rw [huwindow, hpwindow]

/-! ### `TXENQ` and `TXDONE` in either order (R148) -/

/-- `s` with the DMA state machine, the DMA registers and the events replaced: the rest is the queue's contents and what
the TX commands leave alone. -/
abbrev State.withEngine (s : State) (d : DmaState) (dma : DmaRegs) (es : List Event) : State :=
  { s with tx := { s.tx with dmaState := d }, dma := dma, events := es }

/-- Blocks are filled without regard to the engine (41_tx_queue.md R101). -/
theorem State.fillBlocks_withEngine {s t : State} {k : Nat} {data : List Byte}
    (h : State.fillBlocks k data s = some t) (d : DmaState) (dma : DmaRegs) (es : List Event) :
    State.fillBlocks k data (s.withEngine d dma es) = some (t.withEngine d dma es) := by
  induction k generalizing s data with
  | zero =>
    obtain rfl := State.fillBlocks_zero.mp h
    rfl
  | succ k ih =>
    obtain ⟨r, hr, ht⟩ := State.fillBlocks_succ.mp h
    have ht' := ih ht
    obtain ⟨hslot, rfl⟩ := State.fillBlock_eq_some.mp hr
    exact State.fillBlocks_succ.mpr ⟨_, State.fillBlock_eq_some.mpr ⟨hslot, rfl⟩, ht'⟩

/-- A block is retired without regard to the engine (41_tx_queue.md R110). -/
theorem State.retire_withEngine {s t : State} (h : s.retire = some t) (d : DmaState) (dma : DmaRegs)
    (es : List Event) : (s.withEngine d dma es).retire = some (t.withEngine d dma (es ++ [.dmaClr])) := by
  obtain ⟨hslot, rfl⟩ := State.retire_eq_some.mp h
  exact State.retire_eq_some.mpr ⟨hslot, rfl⟩

/-- Filling a free slot and retiring the oldest block write different slots. -/
theorem State.fillBlock_retire_comm {s r q : State} {bytes : List Byte} (hhead : s.tx.head = s.slotAt s.tx.count)
    (hroom : s.tx.count < s.cfg.nb) (hfill : s.fillBlock bytes = some r) (hretire : s.retire = some q) :
    ∃ v, q.fillBlock bytes = some v ∧ r.retire = some v := by
  obtain ⟨hhd, rfl⟩ := State.fillBlock_eq_some.mp hfill
  obtain ⟨⟨htl, hpos⟩, rfl⟩ := State.retire_eq_some.mp hretire
  have hne : s.tx.head ≠ s.tx.tail := fun he => by
    have htail := ((State.slotExists_iff _ _).mp htl).1
    rw [hhead, ← State.slotAt_zero htail] at he
    have := State.slotAt_inj hroom (Nat.zero_lt_of_lt hroom) he
    omega
  refine ⟨_, State.fillBlock_eq_some.mpr ⟨?_, rfl⟩, State.retire_eq_some.mpr ⟨⟨?_, Nat.succ_pos _⟩, ?_⟩⟩
  · simpa [State.slotExists] using hhd
  · simpa [State.slotExists] using htl
  · simp [List.set_comm _ _ hne, Nat.sub_add_cancel hpos, State.txAddr]

/-- Filling the blocks of a request that fits commutes with retiring the oldest block. -/
theorem State.fillBlocks_retire_comm {s r q : State} {k : Nat} {data : List Byte}
    (hhead : s.tx.head = s.slotAt s.tx.count) (hfit : s.tx.count + k ≤ s.cfg.nb)
    (hfill : State.fillBlocks k data s = some r) (hretire : s.retire = some q) :
    ∃ v, State.fillBlocks k data q = some v ∧ r.retire = some v := by
  induction k generalizing s q data with
  | zero =>
    obtain rfl := State.fillBlocks_zero.mp hfill
    exact ⟨q, rfl, hretire⟩
  | succ k ih =>
    obtain ⟨s', hfirst, hrest⟩ := State.fillBlocks_succ.mp hfill
    obtain ⟨q', hfirst', hretire'⟩ := State.fillBlock_retire_comm hhead (by omega) hfirst hretire
    have hhead' : s'.tx.head = s'.slotAt s'.tx.count := by
      obtain ⟨-, rfl⟩ := State.fillBlock_eq_some.mp hfirst
      show (s.tx.head + 1) % s.cfg.nb = (s.tx.tail + (s.tx.count + 1)) % s.cfg.nb
      rw [hhead, State.slotAt, Nat.mod_add_mod, Nat.add_assoc]
    have hfit' : s'.tx.count + k ≤ s'.cfg.nb := by
      obtain ⟨-, rfl⟩ := State.fillBlock_eq_some.mp hfirst
      show s.tx.count + 1 + k ≤ s.cfg.nb
      omega
    obtain ⟨v, hfill', hretired⟩ := ih hhead' hfit' hrest hretire'
    have hcfg : q.cfg = s.cfg := (State.retire_frame hretire).1
    exact ⟨v, State.fillBlocks_succ.mpr ⟨q', hcfg ▸ hfirst', hcfg ▸ hfill'⟩, hretired⟩

/-- What an arm puts into the trace (41_tx_queue.md R111). -/
def State.oldestEntry (s : State) : ArmEntry :=
  ⟨s.tx.tail, s.usedAt s.tx.tail, s.slotBytes s.tx.tail (s.usedAt s.tx.tail)⟩

@[simp] theorem State.oldestEntry_withEngine (s : State) (d : DmaState) (dma : DmaRegs) (es : List Event) :
    (s.withEngine d dma es).oldestEntry = s.oldestEntry := rfl

/-- The queue of `s` with its oldest block armed, after the events `es`. -/
abbrev State.sending (s : State) (es : List Event) : State :=
  s.withEngine .transmitting ⟨true, true, s.oldestEntry.slot, s.oldestEntry.len⟩ es

/-- Whatever the engine did before, arming leaves a non-empty queue with its oldest block armed. -/
theorem State.txInv.armOrIdle_withEngine {s : State} (hI : s.txInv) (hc : s.tx.count ≠ 0) (d : DmaState)
    (dma : DmaRegs) (es : List Event) :
    (s.withEngine d dma es).armOrIdle = some (s.sending (es ++ [.armed s.oldestEntry])) :=
  State.slotsFormed.armOrIdle (s := s.withEngine d dma es) hI.slotsFormed hc

/-- `TXDONE` with another block queued: it is armed. -/
theorem exec_txdone_arms {s q : State} (hd : s.tx.dmaState = .transmitting) (hretire : s.retire = some q)
    (hI : q.txInv) (hc : q.tx.count ≠ 0) :
    exec .txdone s = .next (q.sending
      (s.events ++ [.dmaClr, .armed q.oldestEntry, .returned ⟨.txdone, .ok, [], []⟩])) := by
  have hpump : s.completed.pump = some (q.sending (s.events ++ [.dmaClr] ++ [.armed q.oldestEntry])) :=
    State.pump_eq_some.mpr (.inr (.inr ⟨rfl, _, State.retire_withEngine hretire .transferDone s.dma s.events,
      hI.armOrIdle_withEngine hc _ _ _⟩))
  rw [exec_txdone_of_pump hd hpump]
  simp [State.answer, State.emit]

/-- `TXDONE` with no other block queued: the engine stops. -/
theorem exec_txdone_idles {s q : State} (hd : s.tx.dmaState = .transmitting) (hretire : s.retire = some q)
    (hc : q.tx.count = 0) :
    exec .txdone s = .next (q.withEngine .idle { s.dma with en := false }
      (s.events ++ [.dmaClr, .returned ⟨.txdone, .ok, [], []⟩])) := by
  have hpump : s.completed.pump =
      some (q.withEngine .idle { s.dma with en := false } (s.events ++ [.dmaClr])) :=
    State.pump_eq_some.mpr (.inr (.inr ⟨rfl, _, State.retire_withEngine hretire .transferDone s.dma s.events,
      State.armOrIdle_eq_some.mpr (.inl ⟨hc, rfl⟩)⟩))
  rw [exec_txdone_of_pump hd hpump]
  simp [State.answer, State.emit]

/-- Filling the blocks of a request that fits leaves the oldest block as it was (41_tx_queue.md R105). -/
theorem State.fillBlocks_oldestEntry {s t : State} {len : Nat} {data : List Byte} (hbs : 1 ≤ s.cfg.bs)
    (hI : s.txInv) (hc : s.tx.count ≠ 0) (hlen : data.length = len)
    (hfit : s.tx.count + blocksNeeded s.cfg.bs len ≤ s.cfg.nb)
    (h : State.fillBlocks (blocksNeeded s.cfg.bs len) data s = some t) : t.oldestEntry = s.oldestEntry := by
  obtain ⟨hhi, hlo⟩ := blocksNeeded_bounds (len := len) hbs
  obtain ⟨t', ht', htI, hcount, -, -, -, hqueued, -⟩ :=
    State.fillBlocks_spec _ data s hbs hI hfit (hlen ▸ hlo) (hlen ▸ hhi)
  obtain rfl := Option.some.inj (ht'.symm.trans h)
  have ⟨_, _, htail, _⟩ := hI
  have ⟨_, _, htail', _⟩ := htI
  obtain ⟨-, -, htl, -⟩ := State.fillBlocks_rest h
  have hbytes := hqueued 0 (Nat.zero_le _)
  rw [State.queuedFrom_zero hc htail, State.queuedFrom_zero (by omega) htail', hqueued 1 (Nat.pos_of_ne_zero hc),
    List.append_assoc] at hbytes
  have hblock := List.append_cancel_right hbytes
  have hsize : t'.usedAt t'.tx.tail = s.usedAt s.tx.tail := by simpa using congrArg List.length hblock
  rw [State.oldestEntry, State.oldestEntry, hblock, hsize, htl]

/-- From `s` the queue of `v` came to be in flight, its oldest block the one entry added to the trace. -/
abbrev State.armsOldestOf (s v t : State) : Prop :=
  ∃ es, t = v.sending es ∧ t.txTrace = s.txTrace ++ [v.oldestEntry]

theorem State.armsOldestOf.sameBlock {s v t u : State} (ht : s.armsOldestOf v t) (hu : s.armsOldestOf v u) :
    t.sameBlock u ∧ u.txTrace = t.txTrace := by
  obtain ⟨es, rfl, htrace⟩ := ht
  obtain ⟨es', rfl, htrace'⟩ := hu
  exact ⟨⟨rfl, rfl, rfl, rfl, rfl⟩, htrace'.trans htrace.symm⟩

/-- The request first: its blocks go behind the one in flight, and the completion arms the oldest of the others. -/
theorem exec_txenq_txdone {s r v : State} {len : Nat} (hl : 1 ≤ len) (hbs : 1 ≤ s.cfg.bs)
    (hd : s.tx.dmaState = .transmitting) (hfit : s.tx.count + blocksNeeded s.cfg.bs len ≤ s.cfg.nb)
    (hpay : len ≤ s.appIn.length)
    (hfill : State.fillBlocks (blocksNeeded s.cfg.bs len) (s.appIn.take len) s = some r)
    (hretire : r.retire = some v) (hI : v.txInv) (hc : v.tx.count ≠ 0) :
    ∃ t u, exec (.txenq len) s = .next t ∧ exec .txdone t = .next u ∧ s.armsOldestOf v u := by
  obtain ⟨-, hevents, -, hstate, -⟩ := State.fillBlocks_rest hfill
  have hflight := hstate.trans hd
  have hretire' : (r.answer (.txenq len) .ok (s.appIn.take len) []).retire = _ :=
    State.retire_withEngine hretire r.tx.dmaState r.dma _
  refine ⟨_, _, exec_txenq_of_pump hl hbs hfit hpay hfill (State.pump_of_transmitting hflight),
    exec_txdone_arms hflight hretire' hI hc, _, rfl, ?_⟩
  simp [State.txTrace, hevents, Event.arm?, List.filterMap_cons]

/-- The completion first: it arms the next block, or stops the engine and leaves the request to arm its own first. -/
theorem exec_txdone_txenq {s q v : State} {len : Nat} (hl : 1 ≤ len) (hbs : 1 ≤ q.cfg.bs)
    (hd : s.tx.dmaState = .transmitting) (hretire : s.retire = some q) (hqI : q.txInv)
    (hfit : q.tx.count + blocksNeeded q.cfg.bs len ≤ q.cfg.nb) (hpay : len ≤ q.appIn.length)
    (hfill : State.fillBlocks (blocksNeeded q.cfg.bs len) (q.appIn.take len) q = some v) (hI : v.txInv)
    (hc : v.tx.count ≠ 0) :
    ∃ t u, exec .txdone s = .next t ∧ exec (.txenq len) t = .next u ∧ s.armsOldestOf v u := by
  by_cases hlast : q.tx.count = 0
  · have hidle := exec_txdone_idles hd hretire hlast
    refine ⟨_, _, hidle, exec_txenq_of_pump hl hbs hfit hpay (State.fillBlocks_withEngine hfill _ _ _)
      (State.pump_eq_some.mpr (.inr (.inl ⟨rfl, hI.armOrIdle_withEngine hc _ _ _⟩))), _, rfl, ?_⟩
    simp [State.txTrace, Event.arm?, List.filterMap_cons]
  · have harm := exec_txdone_arms hd hretire hqI hlast
    have holdest := State.fillBlocks_oldestEntry hbs hqI hlast (List.length_take_of_le hpay) hfit hfill
    rw [State.sending, ← holdest] at harm
    refine ⟨_, _, harm, exec_txenq_of_pump hl hbs hfit hpay (State.fillBlocks_withEngine hfill _ _ _)
      (State.pump_of_transmitting rfl), _, rfl, ?_⟩
    simp [State.txTrace, Event.arm?, List.filterMap_cons]

/-- Settles O44: filling and retiring commute, and either order then has the oldest block of the same queue armed. -/
theorem enqueueAndCompletionCommute : Obligations.EnqueueAndCompletionCommute := by
  rintro len s ⟨⟨-, -, hbs, -⟩, -, -, htx, ⟨-, htransmitting, -⟩, -⟩ hd hl hpay hslots
  have hfit : s.tx.count + blocksNeeded s.cfg.bs len ≤ s.cfg.nb := hslots
  obtain ⟨hpos, -⟩ := htransmitting hd
  have hdata : (s.appIn.take len).length = len := List.length_take_of_le hpay
  obtain ⟨hhi, hlo⟩ := blocksNeeded_bounds (len := len) hbs
  obtain ⟨r, hfill, hrI, hrcount, -⟩ :=
    State.fillBlocks_spec (blocksNeeded s.cfg.bs len) (s.appIn.take len) s hbs htx hfit (by rwa [hdata])
      (by rwa [hdata])
  obtain ⟨q, hretire, hqI, -, -, -, -, hqcount, -⟩ := State.retire_spec htx hpos
  obtain ⟨v, hfill', hretire'⟩ := State.fillBlocks_retire_comm htx.head_eq hfit hfill hretire
  obtain ⟨v', hv', hvI, -, -, -, -, hvcount, -⟩ := State.retire_spec hrI (by omega)
  obtain rfl := Option.some.inj (hv'.symm.trans hretire')
  have hblocks := blocksNeeded_pos hbs hl
  have hc : v'.tx.count ≠ 0 := by omega
  obtain ⟨hcfg, -, -, -, happ, -⟩ := State.retire_frame hretire
  obtain ⟨t, u, ht, hu, hfirst⟩ := exec_txenq_txdone hl hbs hd hfit hpay hfill hretire' hvI hc
  obtain ⟨t', u', ht', hu', hsecond⟩ := exec_txdone_txenq (len := len) hl (hcfg ▸ hbs) hd hretire hqI
    (by rw [hcfg]; omega) (happ ▸ hpay) (by rwa [hcfg, happ]) hvI hc
  exact ⟨t, u, t', u', ht, hu, ht', hu', hfirst.sameBlock hsecond⟩

/-! ### The answer of a command (R135, R139) -/

/-- From `s` to `t` events were added, none of them an answer. -/
abbrev State.noAnswerYet (s t : State) : Prop :=
  ∃ pre, t.events = s.events ++ pre ∧ ∀ r, Event.returned r ∉ pre

theorem State.noAnswerYet_of_events_eq {s t : State} (h : t.events = s.events) : s.noAnswerYet t :=
  ⟨[], by rw [h, List.append_nil], fun _ => List.not_mem_nil⟩

theorem State.noAnswerYet.trans {s t u : State} (hst : s.noAnswerYet t) (htu : t.noAnswerYet u) :
    s.noAnswerYet u := by
  obtain ⟨pre, hpre, hnone⟩ := hst
  obtain ⟨more, hmore, hnone'⟩ := htu
  refine ⟨pre ++ more, by rw [hmore, hpre, List.append_assoc], fun r hr => ?_⟩
  exact (List.mem_append.mp hr).elim (hnone r) (hnone' r)

theorem State.retire_noAnswerYet {s t : State} (h : s.retire = some t) : s.noAnswerYet t :=
  ⟨_, State.retire_events h, by simp⟩

theorem State.armOrIdle_noAnswerYet {s t : State} (h : s.armOrIdle = some t) : s.noAnswerYet t := by
  rcases State.armOrIdle_events h with ⟨-, -, hevents⟩ | ⟨-, -, hevents⟩
  · exact State.noAnswerYet_of_events_eq hevents
  · exact ⟨_, hevents, by simp⟩

theorem State.pump_noAnswerYet {s t : State} (h : s.pump = some t) : s.noAnswerYet t := by
  rcases State.pump_eq_some.mp h with ⟨-, rfl⟩ | ⟨-, harm⟩ | ⟨-, r, hretire, harm⟩
  · exact State.noAnswerYet_of_events_eq rfl
  · exact State.armOrIdle_noAnswerYet harm
  · exact (State.retire_noAnswerYet hretire).trans (State.armOrIdle_noAnswerYet harm)

/-- The error statuses a command can return (R135). -/
def errorsOf : Instr → List Status
  | .rxpush _ => [.overflow]
  | .rxpop _ => [.underflow]
  | .txenq _ => [.queueFull, .invalidArgument]
  | .chOpen _ _ => [.openFailed]
  | .rxrst | .txrst | .txpump | .txdone => []

/-- A command that completes either raises one of its errors, or ends its work with the one answer `OK`. -/
theorem exec_answers {i : Instr} {s t : State} (h : exec i s = .next t) :
    (∃ st ∈ errorsOf i, st ≠ .ok ∧ t = s.raise i st) ∨
      ∃ u inp out, s.noAnswerYet u ∧ t.events = u.events ++ [.returned ⟨i, .ok, inp, out⟩] := by
  rcases exec_cases h with ⟨st, hst, rfl, herr⟩ | ⟨-, rfl⟩ | ⟨b, r, -, -, hstore, rfl⟩ | ⟨n, -, -, -, rfl⟩ |
    ⟨-, rfl⟩ | ⟨n, r, u, -, -, -, -, -, hfill, hpump, rfl⟩ | ⟨u, -, hpump, rfl⟩ |
    ⟨r, u, -, -, hretire, harm, rfl⟩ | ⟨p, b, -, -, rfl⟩
  · refine .inl ⟨st, ?_, hst, rfl⟩
    rcases herr with ⟨b, rfl, rfl, -⟩ | ⟨n, rfl, rfl, -⟩ | ⟨rfl, rfl⟩ | ⟨n, rfl, -, -, rfl, -⟩ |
      ⟨p, b, rfl, rfl, -⟩ <;> simp [errorsOf]
  · exact .inr ⟨s, _, _, State.noAnswerYet_of_events_eq rfl, rfl⟩
  · obtain ⟨-, rfl⟩ := State.rxStore_eq_some.mp hstore
    exact .inr ⟨s, _, _, State.noAnswerYet_of_events_eq rfl, rfl⟩
  · exact .inr ⟨s, _, _, State.noAnswerYet_of_events_eq rfl, rfl⟩
  · exact .inr ⟨s, _, _, State.noAnswerYet_of_events_eq rfl, rfl⟩
  · obtain ⟨-, hevents, -⟩ := State.fillBlocks_rest hfill
    exact .inr ⟨u, _, _, (State.noAnswerYet_of_events_eq hevents).trans (State.pump_noAnswerYet hpump), rfl⟩
  · exact .inr ⟨u, _, _, State.pump_noAnswerYet hpump, rfl⟩
  · have hretired : s.noAnswerYet r := (State.retire_noAnswerYet hretire :)
    exact .inr ⟨u, _, _, hretired.trans (State.armOrIdle_noAnswerYet harm), rfl⟩
  · exact .inr ⟨s.emit (.cfgReq b p), [], [], ⟨_, rfl, by simp⟩, by simp⟩

/-- Settles O48: a command whose answer is an error has raised it. -/
theorem failedCommandsWriteNothing : Obligations.FailedCommandsWriteNothing := by
  intro i s t r h hlast hne
  rcases exec_answers h with ⟨st, -, -, rfl⟩ | ⟨u, inp, out, -, hevents⟩
  · have hr : Event.returned ⟨i, st, [], []⟩ = .returned r := by simpa using hlast
    obtain rfl := Event.returned.inj hr
    rfl
  · have hr : Event.returned ⟨i, .ok, inp, out⟩ = .returned r := by simpa [hevents] using hlast
    obtain rfl := Event.returned.inj hr
    exact absurd rfl hne

/-- Settles O49: the answer is one of the command's errors or `OK`, and what comes before it is no answer. -/
theorem everyCommandReturnsOneOfItsStatuses : Obligations.EveryCommandReturnsOneOfItsStatuses := by
  refine ⟨rfl, fun i s t h => ?_⟩
  rcases exec_answers h with ⟨st, hst, -, rfl⟩ | ⟨u, inp, out, ⟨pre, hpre, hnone⟩, hevents⟩
  · refine ⟨[], st, [], [], by simp, fun _ => List.not_mem_nil, ?_⟩
    cases i <;> exact List.mem_cons_of_mem _ hst
  · refine ⟨pre, .ok, inp, out, by rw [hevents, hpre], hnone, ?_⟩
    cases i <;> exact List.mem_cons_self

/-! ### No history of outputs (R140) -/

/-- The command completes from `s` in `t`, and alike after any other events, adding the same ones. -/
abbrev blindToPast (i : Instr) (s t : State) : Prop :=
  ∃ new, t.events = s.events ++ new ∧ ∀ past : List Event,
    exec i { s with events := past } = .next { t with events := past ++ new }

theorem exec_isRx_blindToPast {i : Instr} {s t : State} (hi : i.isRx = true) (h : exec i s = .next t) :
    blindToPast i s t := by
  obtain ⟨r, ht, hother⟩ := exec_isRx_spec hi h
  refine ⟨[.returned r], congrArg State.events ht, fun past => (hother { s with events := past } rfl rfl).trans ?_⟩
  rw [ht]

theorem exec_isTx_blindToPast {i : Instr} {s t : State} (hi : i.isTx = true) (h : exec i s = .next t) :
    blindToPast i s t := by
  obtain ⟨new, hnew⟩ := exec_isTx_ringBlind hi h
  have ht : t = t.withRing s.rx (s.events ++ new) := Host.Outcome.next.inj (h.symm.trans (hnew s.rx s.events))
  refine ⟨new, congrArg State.events ht, fun past => (hnew s.rx past).trans ?_⟩
  rw [ht]

theorem exec_chOpen_blindToPast {pin baud : Nat} {s t : State} (h : exec (.chOpen pin baud) s = .next t) :
    blindToPast (.chOpen pin baud) s t := by
  cases hp : s.cfg.pins.getLsbD pin
  · rw [exec_chOpen_unsupported hp] at h
    obtain rfl := Host.Outcome.next.inj h
    exact ⟨_, rfl, fun past => exec_chOpen_unsupported (s := { s with events := past }) hp baud⟩
  · rw [exec_chOpen_supported hp] at h
    obtain rfl := Host.Outcome.next.inj h
    exact ⟨_, rfl, fun past => exec_chOpen_supported (s := { s with events := past }) hp baud⟩

/-- No command reads what was emitted before it. -/
theorem exec_blindToPast {i : Instr} {s t : State} (h : exec i s = .next t) : blindToPast i s t := by
  cases i with
  | rxrst => exact exec_isRx_blindToPast rfl h
  | rxpush b => exact exec_isRx_blindToPast rfl h
  | rxpop len => exact exec_isRx_blindToPast rfl h
  | txrst => exact exec_isTx_blindToPast rfl h
  | txenq len => exact exec_isTx_blindToPast rfl h
  | txpump => exact exec_isTx_blindToPast rfl h
  | txdone => exact exec_isTx_blindToPast rfl h
  | chOpen pin baud => exact exec_chOpen_blindToPast h

/-- Settles O50: the events before are kept, and nothing else depends on them. -/
theorem pastOutputsHaveNoInfluence : Obligations.PastOutputsHaveNoInfluence := by
  intro i s t past h
  obtain ⟨new, hnew, hexec⟩ := exec_blindToPast h
  exact ⟨new, hnew, hexec past⟩

end Sys2Proof.Machine

/-! The statements of 70_reset_and_hazards.md: what the hardware reset leaves, and that a completion which comes after a
reset of the transmit engine faults. -/

namespace Sys2Proof.Machine

/-! ### The hardware reset (R165) -/

/-- The reset input is delivered in every state, so a step takes it as soon as it is next. -/
theorem step_of_rst {s : State} {rest : List Input} (hin : s.inputs = .rst :: rest) :
    step s = .next (State.hardReset { s with inputs := rest }) := by
  refine step_of_take_rst ?_
  rw [hin]
  exact takeFirst_cons_of_can rfl rest

/-- An RXIRQ command cannot be delivered while the receive interrupt is disabled (60_exceptions.md R145). -/
theorem State.delivers_rxirq_of_disabled {s : State} {r : Request} (hen : s.ch.rxIrqEn = false)
    (hport : r.port = .rxirq) : s.delivers (.command r) = false :=
  Bool.eq_false_iff.mpr fun h => Bool.false_ne_true (hen.symm.trans ((s.delivers_command r).mp h hport))

/-- Settles O11: the step is `State.hardReset`, whose cleared enable bits close both interrupt ports. -/
theorem hardResetGivesResetValues : Obligations.HardResetGivesResetValues := by
  intro s rest hin
  refine ⟨_, step_of_rst hin, rfl, rfl, State.rxRead_of_mem_nil rfl, rfl, rfl, rfl, rfl, rfl, rfl, rfl, rfl, rfl, rfl,
    rfl, fun r hport => State.delivers_rxirq_of_disabled rfl hport, fun p more => ?_⟩
  exact (completionIsAdmittedExactlyInTransmitting _ p more rfl).1 (.inl rfl)

/-! ### A completion after a reset of the transmit engine (R175, 60_exceptions.md R148) -/

/-- `TXRST` abandons what was in flight (41_tx_queue.md R96). -/
theorem exec_txrst_idle {s t : State} (h : exec .txrst s = .next t) : t.tx.dmaState = .idle := by
  obtain rfl := Host.Outcome.next.inj ((exec_txrst s).symm.trans h)
  rfl

/-- `OPEN` of a supported pin abandons what was in flight (42_channel.md R126). -/
theorem exec_chOpen_idle {pin baud : Nat} {s t : State} (hp : s.cfg.pins.getLsbD pin = true)
    (h : exec (.chOpen pin baud) s = .next t) : t.tx.dmaState = .idle := by
  obtain rfl := Host.Outcome.next.inj ((exec_chOpen_supported hp baud).symm.trans h)
  rfl

/-- `TXRST` arms nothing. -/
theorem exec_txrst_txTrace {s t : State} (h : exec .txrst s = .next t) : t.txTrace = s.txTrace :=
  (exec_txTrace h).resolve_right (by simp)

/-- Settles O45: either reset leaves the engine idle, where `TXDONE` faults, and neither is a command that arms. -/
theorem completionAfterAResetFaults : Obligations.CompletionAfterAResetFaults := by
  rintro i s t (rfl | ⟨pin, baud, rfl, hp⟩) h
  · exact ⟨exec_txdone_outside (by simp [exec_txrst_idle h]), exec_txrst_txTrace h⟩
  · exact ⟨exec_txdone_outside (by simp [exec_chOpen_idle hp h]), exec_chOpen_txTrace h⟩

end Sys2Proof.Machine
